-- ==== Sys2Proof/Word.lean ====
section
/-!
DEFINITION. The words of the block and the fixed-size byte sequences of its state
(spec/00_scope.md R9, R11; spec/10_state.md R20).
-/

namespace Sys2Proof

/-- One byte: a register, a character code, an operand (R9). -/
abbrev Byte := BitVec 8

/-- A command word (R60) or a response word (R64). -/
abbrev Word := BitVec 16

/-- A device address: 8 bytes, byte 0 the family code, byte 7 the checksum (R71). -/
abbrev Address := Vector Byte 8

/-- A scratchpad reading: 9 bytes, byte 8 the checksum (R72). -/
abbrev Scratchpad := Vector Byte 9

/-- The string register: 8 character codes (R127). -/
abbrev Text := Vector Byte 8

end Sys2Proof
end

