-- ==== Sys2Proof/Machine/Operands.lean ====
section
/-!
DEFINITION. Operand assembly and operand legality (spec/30_encoding.md R60 to R62, R66; spec/20_memory.md R41, R42,
R101): the three fields of a command word, the legal indexes, the mapped addresses, and the bit of an
address a search position names.
-/

namespace Sys2Proof.Machine

/-- Field `opc`, bits 15 to 12 (R60). -/
def opcField (w : Word) : BitVec 4 := w.extractLsb' 12 4

/-- Field `a`, bits 11 to 8 (R60). -/
def aField (w : Word) : BitVec 4 := w.extractLsb' 8 4

/-- Field `d`, bits 7 to 0 (R60). -/
def dField (w : Word) : Byte := w.extractLsb' 0 8

/-- The word with the given fields (R60). -/
def packWord (opc a : BitVec 4) (d : Byte) : Word := opc ++ a ++ d

/-- R62: the legal values of `idx` are 0 to 8. -/
def idxLegal (idx : BitVec 4) : Bool := decide (idx.toNat ≤ 8)

/-- R42, R141: `WRB idx` seen as a `MemWrite` goes to address `0x20 + idx`. -/
def bufAddr (idx : BitVec 4) : Byte := 0x20#8 + idx.setWidth 8

/-- R41: the mapped addresses. -/
def addrMapped (addr : Byte) : Bool :=
  decide (addr.toNat ≤ 0x07) ||
  (decide (0x10 ≤ addr.toNat) && decide (addr.toNat ≤ 0x17)) ||
  (decide (0x20 ≤ addr.toNat) && decide (addr.toNat ≤ 0x28)) ||
  (decide (0x30 ≤ addr.toNat) && decide (addr.toNat ≤ 0x37))

/-- R101: `addr_bit(a, i)` is bit `i mod 8` of byte `i div 8` of `a` (for `i` up to 63). -/
def addrBit (a : Address) (i : Nat) : Bool := (a[i / 8]?.getD 0#8).getLsbD (i % 8)

/-- Bit `j` of a byte set to `v`. -/
def setByteBit (b : Byte) (j : Nat) (v : Bool) : Byte :=
  if v then b ||| (1#8 <<< j) else b &&& ~~~(1#8 <<< j)

/-- R107: `work[i div 8][i mod 8] <- dir`. -/
def setAddrBit (a : Address) (i : Nat) (v : Bool) : Address :=
  a.setIfInBounds (i / 8) (setByteBit (a[i / 8]?.getD 0#8) (i % 8) v)

end Sys2Proof.Machine
end

