-- ==== Sys2Proof/Syntax.lean ====
section
/-!
DEFINITION. The ten operations, one constructor per row of spec/opcode_table.json (spec/30_encoding.md R63),
with the operands R62 gives them.
-/

namespace Sys2Proof

/-- An operation with its operands. -/
inductive Instr where
  /-- `NOP` (R140). -/
  | nop
  /-- `CRCCLR` (R84). -/
  | crcclr
  /-- `CRCUPD imm8` (R85). -/
  | crcupd (imm8 : Byte)
  /-- `CHKA` (R88). -/
  | chka
  /-- `CHKS` (R89). -/
  | chks
  /-- `SRST` (R104). -/
  | srst
  /-- `NEXT` (R105 to R111). -/
  | next
  /-- `DECODE fam` (R129). -/
  | decode (fam : Byte)
  /-- `WRB idx, imm8` (R141). -/
  | wrb (idx : BitVec 4) (imm8 : Byte)
  /-- `RD addr` (R142). -/
  | rd (addr : Byte)
deriving DecidableEq, Repr

end Sys2Proof
end

