-- ==== Sys2Proof/WellFormed.lean ====
section
/-!
DEFINITION. Which operations are legal (spec/30_encoding.md R66): the index of a `WRB` is 0 to 8, the address of an
`RD` is mapped. Every other operand is any value of its field.
-/

namespace Sys2Proof

/-- The operand checks of R66, one arm per operation. -/
def Instr.wellFormed : Instr → Bool
  | .nop => true
  | .crcclr => true
  | .crcupd _ => true
  | .chka => true
  | .chks => true
  | .srst => true
  | .next => true
  | .decode _ => true
  | .wrb idx _ => Machine.idxLegal idx
  | .rd addr => Machine.addrMapped addr

/-- A legal operation. -/
abbrev Instr.WellFormed (i : Instr) : Prop := i.wellFormed = true

end Sys2Proof
end

