-- ==== Sys2Proof/Decode.lean ====
section
/-!
DEFINITION. The total decoder of spec/30_encoding.md R68 over command words (R60, R61, R63, R66), and the encoder
written from the same tables. Decoding depends on the word alone.
-/

namespace Sys2Proof

open Machine

/-- Why a word is illegal: the cases of R66, by name. Each is safe: the block answers ILLEGAL (R66). -/
inductive Illegal where
  /-- `opc` is 0xA to 0xF. -/
  | reservedOpcode
  /-- A field the format does not use is nonzero. -/
  | unusedFieldNonzero
  /-- A `WRB` with `idx` above 8. -/
  | indexOutOfRange
  /-- An `RD` of an unmapped address. -/
  | addressUnmapped
deriving DecidableEq, Repr

/-- Format F0 (R61): `a` and `d` must be zero. -/
def decodeF0 (w : Word) (i : Instr) : Except Illegal Instr :=
  if aField w = 0 ∧ dField w = 0 then .ok i else .error .unusedFieldNonzero

/-- Format FI (R61): `a` must be zero; `d` is the operand byte. -/
def decodeFI (w : Word) (i : Byte → Instr) : Except Illegal Instr :=
  if aField w = 0 then .ok (i (dField w)) else .error .unusedFieldNonzero

/-- `RD addr`: format FI with the address mapped (R66). -/
def decodeRd (w : Word) : Except Illegal Instr :=
  if aField w ≠ 0 then .error .unusedFieldNonzero
  else if addrMapped (dField w) then .ok (.rd (dField w)) else .error .addressUnmapped

/-- `WRB idx, imm8`: format FX with the index legal (R66). -/
def decodeWrb (w : Word) : Except Illegal Instr :=
  if idxLegal (aField w) then .ok (.wrb (aField w) (dField w)) else .error .indexOutOfRange

/-- The decoder of R68: the opcode map of R63, then the checks of R66. -/
def decodeWord (w : Word) : Except Illegal Instr :=
  match (opcField w).toNat with
  | 0x0 => decodeF0 w .nop
  | 0x1 => decodeF0 w .crcclr
  | 0x2 => decodeFI w .crcupd
  | 0x3 => decodeF0 w .chka
  | 0x4 => decodeF0 w .chks
  | 0x5 => decodeF0 w .srst
  | 0x6 => decodeF0 w .next
  | 0x7 => decodeFI w .decode
  | 0x8 => decodeWrb w
  | 0x9 => decodeRd w
  | _ => .error .reservedOpcode

/-- The word of an operation (R60 to R63). -/
def encode : Instr → Word
  | .nop => packWord 0x0 0 0
  | .crcclr => packWord 0x1 0 0
  | .crcupd imm8 => packWord 0x2 0 imm8
  | .chka => packWord 0x3 0 0
  | .chks => packWord 0x4 0 0
  | .srst => packWord 0x5 0 0
  | .next => packWord 0x6 0 0
  | .decode fam => packWord 0x7 0 fam
  | .wrb idx imm8 => packWord 0x8 idx imm8
  | .rd addr => packWord 0x9 0 addr

/-- The command word the opcode table's number `w` of `nbits` bits stands for: one 16-bit word, the bits above
`nbits` zero (R60: "There is one length"). -/
def tableWord (nbits w : Nat) : Word := BitVec.ofNat 16 (w % 2 ^ nbits)

/-- The instruction the decoder reads from a table word; `none` where it refuses, or where the word is longer than
the one length there is. -/
def decodeTableWord (nbits w : Nat) : Option Instr :=
  if nbits ≤ 16 then
    match decodeWord (tableWord nbits w) with
    | .ok i => some i
    | .error _ => none
  else none

end Sys2Proof
end

