-- ==== Sys2Proof/Machine/Crc.lean ====
section
/-!
DEFINITION. The checksum function (spec/40_crc.md R80 to R83, R87): the byte step, the fold over a sequence, the check of a
record, and the two equivalent forms of R83.
-/

namespace Sys2Proof.Machine

/-- `CRC_INIT` (R7, R82). -/
def crcInit : Byte := 0x00

/-- `CRC_TAPS` (R7, R81): x^8 + x^5 + x^4 + 1, least significant bit first. -/
def crcTaps : Byte := 0x8C

/-- One of the eight steps of R81: shift right by one; if the bit shifted out was 1, XOR the tap mask in. -/
def crcShift (c : Byte) : Byte :=
  if c.getLsbD 0 then (c >>> 1) ^^^ crcTaps else c >>> 1

/-- `n` steps of R81. -/
def crcShifts : Nat → Byte → Byte
  | 0, c => c
  | n + 1, c => crcShifts n (crcShift c)

/-- `crc8_byte(c, b)` of R81. -/
def crc8Byte (c b : Byte) : Byte := crcShifts 8 (c ^^^ b)

/-- The fold of the byte step over a sequence from a register value (R82, R86 (b)). -/
def crcFold (c : Byte) : List Byte → Byte
  | [] => c
  | b :: s => crcFold (crc8Byte c b) s

/-- `crc8(s)` of R82. -/
def crc8 (s : List Byte) : Byte := crcFold crcInit s

/-- R87: a record of `n >= 1` bytes passes when `crc8(r[0..n-1)) == r[n-1]`. -/
def recordPasses (r : List Byte) : Bool :=
  match r.getLast? with
  | none => false
  | some last => crc8 r.dropLast == last

/-- R83 (a), one input bit of the bit-serial form: `fb = c[0] XOR d`, shift, and XOR the taps if `fb` is 1. -/
def crcSerialBit (c : Byte) (d : Bool) : Byte :=
  if Bool.xor (c.getLsbD 0) d then (c >>> 1) ^^^ crcTaps else c >>> 1

/-- R83 (a): the bits of `b` from bit `j` on, `n` of them, consumed serially. -/
def crcSerialBits (b : Byte) : Nat → Nat → Byte → Byte
  | 0, _, c => c
  | n + 1, j, c => crcSerialBits b n (j + 1) (crcSerialBit c (b.getLsbD j))

/-- R83 (a): the bit-serial form over a sequence. -/
def crcSerial (c : Byte) : List Byte → Byte
  | [] => c
  | b :: s => crcSerial (crcSerialBits b 8 0 c) s

/-- R83 (b): `T[b] = crc8_byte(0x00, b)`. -/
def crcTable (b : Byte) : Byte := crc8Byte 0x00 b

end Sys2Proof.Machine
end

