-- ==== Sys2Proof/Config.lean ====
section
/-!
DEFINITION. What an implementation of the block fixes (spec/00_scope.md R1, R7). The two family codes are
OPEN in the spec: they are an argument of the model (a field of State that no operation writes), so that every
statement holds for every value of them. The fixed parameters of R7 stand beside the operations that use
them (`crcInit`, `crcTaps`, `searchCommand`).
-/

namespace Sys2Proof

/-- The identity string of R1. -/
def Config.identity : String := "OWC/esp8266-logger-spec-v7"

/-- The OPEN parameters of R7, fixed for the life of a run (R35, R174). -/
structure Params where
  /-- `FAMILY_A`: the 9-bit-resolution family. -/
  familyA : Byte
  /-- `FAMILY_B`: the variable-resolution family. -/
  familyB : Byte
deriving DecidableEq, Repr

/-- R7: "`FAMILY_A` and `FAMILY_B` must differ from each other; nothing else is assumed of them." -/
abbrev Params.Wf (p : Params) : Prop := p.familyA ≠ p.familyB

/-- The values R7 suggests and the spec's test vectors use. DESIGN CHOICE (log 9), unsafe: the spec gives the
parameters no value. No statement rests on these. -/
def Config.suggested : Params := { familyA := 0x10, familyB := 0x28 }

end Sys2Proof
end

