-- ==== Sys2Proof/Machine/State.lean ====
section
/-!
DEFINITION. The state of the block (spec/10_state.md R20 to R37), its ports and the bus environment
(spec/20_memory.md R40, R50 to R54), as plain data, and the machine right after power-on reset
(spec/70_reset_and_hazards.md R171).
-/

namespace Sys2Proof.Machine

/-- The scanner's state (R27). The value 3 of the 2-bit register is unrepresentable, as R27 allows (log 8). -/
inductive Phase where
  /-- IDLE = 0. -/
  | idle
  /-- SEARCHING = 1. -/
  | searching
  /-- EXHAUSTED = 2. -/
  | exhausted
deriving DecidableEq, Repr

/-- The eight outcome codes of a response (R150). -/
inductive OutcomeCode where
  /-- Code 0: the operation did what it is for. -/
  | ok
  /-- Code 1: no presence, or a position read the pair (1, 1). -/
  | busEmpty
  /-- Code 2: the discovered address fails its checksum. -/
  | addrCrc
  /-- Code 3: the family code is not one of the two recognised. -/
  | unsupported
  /-- Code 4: the scratchpad fails its checksum. -/
  | spadCrc
  /-- Code 5: `NEXT` in EXHAUSTED. -/
  | noMore
  /-- Code 6: `CHKA` without a found address. -/
  | noData
  /-- Code 7: the command word is illegal. -/
  | illegal
deriving DecidableEq, Repr

/-- A bus primitive that has completed, as seen on the bus port (R50). -/
inductive BusEvent where
  /-- `BusReset()` returned `p`. -/
  | reset (p : Bool)
  /-- `BusReadBit()` returned `b`. -/
  | readBit (b : Bool)
  /-- `BusWriteBit(b)` completed. -/
  | writeBit (b : Bool)
deriving DecidableEq, Repr

/-- What an oracle environment does with one primitive (R52). -/
inductive BusAnswer where
  /-- The primitive completes; a reset or a read returns `b`, a write ignores it. -/
  | bit (b : Bool)
  /-- The primitive never completes. -/
  | never
deriving DecidableEq, Repr

/-- The step of a search on the reference bus (R53). -/
inductive SearchStep where
  | id
  | cmp
  | dir
deriving DecidableEq, Repr

/-- The mode of the reference bus (R53). -/
inductive WBMode where
  /-- `idle`, the initial mode. -/
  | idle
  /-- `command`, with the command bits received so far, the first received first. -/
  | command (received : List Bool)
  /-- `search`, with the devices still taking part (`A`), the bit index and the step. -/
  | search (taking : List Address) (index : Nat) (phase : SearchStep)
  /-- `other`: a command that is not the search command was received. -/
  | other
deriving DecidableEq, Repr

/-- The reference bus environment `WB(D)` (R53): the devices present and the mode. -/
structure WB where
  devices : List Address
  mode : WBMode
deriving DecidableEq, Repr

/-- The bus environment (R8, R52, R53): an oracle, given by its answers to the primitives to come (past the last
one nothing ever completes), or the reference environment. -/
inductive BusEnv where
  | oracle (answers : List BusAnswer)
  | reference (wb : WB)
deriving DecidableEq, Repr

/-- The bus port: the environment behind it and the primitives performed so far, the newest first (log 5). -/
structure BusPort where
  env : BusEnv
  log : List BusEvent
deriving DecidableEq, Repr

/-- What the outside does to the block between operations, in the host's order. -/
inductive HostInput where
  /-- A command word on the command port (R40, R60). -/
  | command (w : Word)
  /-- The power-on reset (R170). -/
  | powerOnReset
  /-- Other users of the bus leave it in another condition (R6, R115, R178, R183; log 7). -/
  | busChange (env : BusEnv)
deriving DecidableEq, Repr

/-- The state. The first twelve fields are the architectural state of R20; the rest are the ports and the
parameters of a run (R8, R35), held here because a step is a function of the state alone. -/
structure State where
  /-- `CRC` (R22). -/
  crc : Byte
  /-- `CK` (R24). -/
  ck : Bool
  /-- `FD` (R25). -/
  fd : Bool
  /-- `NG` (R26). -/
  ng : Bool
  /-- `PHASE` (R27). -/
  phase : Phase
  /-- `LASTD` (R28). -/
  lastd : BitVec 7
  /-- `ROM[0..7]` (R29). -/
  rom : Address
  /-- `BUF[0..8]` (R30). -/
  buf : Scratchpad
  /-- `WHOLE` (R31). -/
  whole : BitVec 12
  /-- `FRAC` (R31). -/
  frac : BitVec 7
  /-- `TLEN` (R31). -/
  tlen : BitVec 4
  /-- `TSTR[0..7]` (R31). -/
  tstr : Text
  /-- The response port: the last response word driven; none before the first (R64, R171; log 1). -/
  resp : Option Word
  /-- A `NEXT` is waiting for a bus primitive that never returns (R161, R179; log 4). -/
  stalled : Bool
  /-- The bus port (R50). -/
  port : BusPort
  /-- The host's inputs not yet taken, the next one first (R33, R40; log 2). -/
  inputs : List HostInput
  /-- `FAMILY_A` and `FAMILY_B` (R7); no operation writes them (log 9). -/
  params : Params
deriving DecidableEq, Repr

/-- R53: the reference bus before its first reset. -/
def WB.initial (devices : List Address) : WB := { devices := devices, mode := .idle }

/-- The machine right after power-on reset (R37, R171). The values of the model's own fields (`resp`, `stalled`,
`port`, `inputs`, `params`) are named in logs 1 to 5 and 9. -/
def State.reset : State :=
  { crc := 0x00
    ck := false
    fd := false
    ng := false
    phase := .idle
    lastd := 0
    rom := #v[0, 0, 0, 0, 0, 0, 0, 0]
    buf := #v[0, 0, 0, 0, 0, 0, 0, 0, 0]
    whole := 0
    frac := 0
    tlen := 0
    tstr := #v[0, 0, 0, 0, 0, 0, 0, 0]
    resp := none
    stalled := false
    port := { env := .reference (WB.initial []), log := [] }
    inputs := []
    params := Config.suggested }

/-- What the block finds at its inputs when it is ready to take the next one. -/
inductive Fetched where
  /-- Nothing to take: no input, or a command word while a `NEXT` waits for ever (R160, R179). -/
  | nothing
  /-- The power-on reset; the rest of the inputs stands in `s`. -/
  | powerOnReset (s : State)
  /-- The bus environment becomes `env`. -/
  | busChange (env : BusEnv) (s : State)
  /-- A command word. -/
  | command (w : Word) (s : State)

/-- How a search pass ends (R107, R179), with the bus port as the pass leaves it. -/
inductive Pass where
  /-- All 64 positions are resolved (R109). -/
  | complete (work : Address) (lastZero : Nat) (port : BusPort)
  /-- No presence, or the pair (1, 1) (R110). -/
  | abort (port : BusPort)
  /-- A primitive never returned (R179). -/
  | hung (port : BusPort)
deriving DecidableEq, Repr

/-- What one bus primitive does: it returns a bit, or it never returns; with the port after it (R50, R52). -/
inductive BusResult where
  | returned (b : Bool) (port : BusPort)
  | hung (port : BusPort)
deriving DecidableEq, Repr

/-- No step of this machine faults: every fault of the spec is a response word and a next state (R151), and a bus
primitive that never returns is a wait (R161). The type has no constructor, so that Lean shows it (log 14). -/
inductive Fault where
deriving DecidableEq, Repr

/-- Why a step has no meaning. -/
inductive Refusal where
  /-- An instruction without a meaning, by the table's mnemonic. Raised by nothing: every operation has its
  meaning. Safe: the machine would stop. -/
  | notModelled (mnemonic : String)
deriving DecidableEq, Repr

end Sys2Proof.Machine
end

