-- ==== Sys2Proof/Machine/Flags.lean ====
section
/-!
DEFINITION. The flags (spec/10_state.md R23 to R26): what each integrity check compares, and the `STATUS` view.
-/

namespace Sys2Proof.Machine

/-- R88: `crc8(ROM[0..7))`, seven bytes. -/
def romCrc (s : State) : Byte := crc8 (s.rom.toList.take 7)

/-- R24, R71: the address check. -/
def romPasses (s : State) : Bool := romCrc s == s.rom[7]

/-- R89: `crc8(BUF[0..8))`, eight bytes. -/
def spadCrc (s : State) : Byte := crc8 (s.buf.toList.take 8)

/-- R24, R72: the scratchpad check. -/
def spadPasses (s : State) : Bool := spadCrc s == s.buf[8]

/-- R129, R130: the family test. -/
def familyKnown (s : State) (fam : Byte) : Bool := fam == s.params.familyA || fam == s.params.familyB

/-- R23: `0b00000 ++ NG ++ FD ++ CK`. -/
def statusByte (s : State) : Byte :=
  0#5 ++ BitVec.ofBool s.ng ++ BitVec.ofBool s.fd ++ BitVec.ofBool s.ck

end Sys2Proof.Machine
end

