-- ==== Sys2Proof/Machine/Temperature.lean ====
section
/-!
DEFINITION. The arithmetic and the string of the temperature decode (spec/42_decoder.md R121 to R127). Values are
computed exactly as natural numbers and narrowed to the register widths at the end (R123: nothing wraps).
-/

namespace Sys2Proof.Machine

/-- R121, R43: `raw = BUF[1] ++ BUF[0]`. -/
def rawTemp (buf : Scratchpad) : BitVec 16 := buf[1] ++ buf[0]

/-- R122: `neg = raw[15]`. -/
def negTemp (raw : BitVec 16) : Bool := raw.getLsbD 15

/-- R122: the magnitude, `(NOT_16(raw) + 1) mod 65536` read unsigned when the sign bit is set. -/
def magTemp (raw : BitVec 16) : Nat := if negTemp raw then (~~~raw + 1#16).toNat else raw.toNat

/-- R123: `scaled = mag * 6 + mag div 4`. -/
def scaledTemp (mag : Nat) : Nat := mag * 6 + mag / 4

/-- R124: `whole = scaled div 100`. -/
def wholeTemp (scaled : Nat) : Nat := scaled / 100

/-- R124: `frac = scaled mod 100`. -/
def fracTemp (scaled : Nat) : Nat := scaled % 100

/-- R127: the code of `-`. -/
def charMinus : Byte := 0x2D

/-- R127: the code of `.`. -/
def charPoint : Byte := 0x2E

/-- R126, R127: the code of the digit `j`, `0 <= j <= 9`. -/
def digitChar (j : Nat) : Byte := 0x30#8 + BitVec.ofNat 8 j

/-- The recursion of R126 with `fuel` as its bound; `n` levels are always enough for `n`. -/
def decDigits : Nat → Nat → List Byte
  | 0, n => [digitChar n]
  | fuel + 1, n => if n < 10 then [digitChar n] else decDigits fuel (n / 10) ++ [digitChar (n % 10)]

/-- R126: `dec(n)`, the decimal numeral without leading zeros. -/
def dec (n : Nat) : List Byte := decDigits n n

/-- R126: `dec2(n)` for `0 <= n <= 99`. -/
def dec2 (n : Nat) : List Byte := [digitChar (n / 10), digitChar (n % 10)]

/-- R127: `tstr(neg, whole, frac)`. -/
def tstrOf (neg : Bool) (whole frac : Nat) : List Byte :=
  (if neg then [charMinus] else []) ++ dec whole ++ [charPoint] ++ dec2 frac

/-- R127, R129: the first eight characters, 0x00 from the string's end on. -/
def padText (s : List Byte) : Text :=
  #v[s[0]?.getD 0, s[1]?.getD 0, s[2]?.getD 0, s[3]?.getD 0, s[4]?.getD 0, s[5]?.getD 0, s[6]?.getD 0, s[7]?.getD 0]

/-- The temperature value of R31: sign, whole part, hundredths and the string. -/
structure Reading where
  neg : Bool
  whole : Nat
  frac : Nat
  text : List Byte
deriving DecidableEq, Repr

/-- R121 to R127: the reading a raw register stands for. -/
def readingOf (raw : BitVec 16) : Reading :=
  let scaled := scaledTemp (magTemp raw)
  { neg := negTemp raw
    whole := wholeTemp scaled
    frac := fracTemp scaled
    text := tstrOf (negTemp raw) (wholeTemp scaled) (fracTemp scaled) }

end Sys2Proof.Machine
end

