-- ==== Sys2Proof/Machine/Ops.lean ====
section
/-!
DEFINITION. The shared operations: the response and the fault that is one (spec/30_encoding.md R64, spec/60_exceptions.md
R150, R151), the register address space (spec/20_memory.md R41, R42), the named state writes of the operation
rules, the power-on reset (spec/70_reset_and_hazards.md R170 to R172) and taking the next input (R33, R160, R179).
-/

namespace Sys2Proof.Machine

/-- R27: the 2-bit encoding of `PHASE`. -/
def phaseCode : Phase → BitVec 2
  | .idle => 0
  | .searching => 1
  | .exhausted => 2

/-- R150: the 3-bit outcome codes. -/
def outcomeBits : OutcomeCode → BitVec 3
  | .ok => 0
  | .busEmpty => 1
  | .addrCrc => 2
  | .unsupported => 3
  | .spadCrc => 4
  | .noMore => 5
  | .noData => 6
  | .illegal => 7

/-- R64: bits 15 to 11 zero, bits 10 to 8 the code, bits 7 to 0 the data. -/
def responseWord (code : OutcomeCode) (data : Byte) : Word := 0#5 ++ outcomeBits code ++ data

/-- R10, R64: `respond(code, data)` drives the response word. -/
def respond (code : OutcomeCode) (data : Byte) (s : State) : State :=
  { s with resp := some (responseWord code data) }

/-- R10, R151: `fault <Name>(data)` is the response with the code of that name, and nothing else. No state is
saved, no control is transferred, and there is no return from it (R154). -/
def raiseFault (code : OutcomeCode) (data : Byte) (s : State) : State := respond code data s

/-- R66: an illegal word changes no state, performs no bus primitive and answers `respond(ILLEGAL, 0x00)`. -/
def answerIllegal (s : State) : State := raiseFault .illegal 0x00 s

/-- R41, R42: `MemRead(addr, 1)`; `none` for an unmapped address. -/
def memRead (s : State) (addr : Byte) : Option Byte :=
  match addr.toNat with
  | 0x00 => some s.crc
  | 0x01 => some (statusByte s)
  | 0x02 => some (0#6 ++ phaseCode s.phase)
  | 0x03 => some (0#1 ++ s.lastd)
  | 0x04 => some (s.whole.extractLsb' 0 8)
  | 0x05 => some (0#4 ++ s.whole.extractLsb' 8 4)
  | 0x06 => some (0#1 ++ s.frac)
  | 0x07 => some (0#4 ++ s.tlen)
  | n =>
    if 0x10 ≤ n ∧ n ≤ 0x17 then s.rom[n - 0x10]?
    else if 0x20 ≤ n ∧ n ≤ 0x28 then s.buf[n - 0x20]?
    else if 0x30 ≤ n ∧ n ≤ 0x37 then s.tstr[n - 0x30]?
    else none

/-- R42: `MemWrite(addr, 1, v)`, defined only for `addr = 0x20 + i` with `i` up to 8. -/
def memWrite (s : State) (addr v : Byte) : Option State :=
  if 0x20 ≤ addr.toNat ∧ addr.toNat ≤ 0x28 then
    some { s with buf := s.buf.setIfInBounds (addr.toNat - 0x20) v }
  else none

/-- `CRC <- v` (R22). -/
def setCrc (v : Byte) (s : State) : State := { s with crc := v }

/-- `CK <- b` (R24). -/
def setCk (b : Bool) (s : State) : State := { s with ck := b }

/-- `FD <- b` (R25). -/
def setFd (b : Bool) (s : State) : State := { s with fd := b }

/-- The cursor writes of `SRST` (R104), of a completed pass (R109) and of an aborted one (R110). -/
def setCursor (phase : Phase) (lastd : BitVec 7) (fd : Bool) (s : State) : State :=
  { s with phase := phase, lastd := lastd, fd := fd }

/-- `ROM <- work` (R109). -/
def setRom (work : Address) (s : State) : State := { s with rom := work }

/-- The bus port as an operation leaves it (R56). -/
def setPort (p : BusPort) (s : State) : State := { s with port := p }

/-- A `NEXT` waits for a primitive that never returns (R161, R179). -/
def setStalled (b : Bool) (s : State) : State := { s with stalled := b }

/-- `clear_result()` of R129. -/
def clearResult (s : State) : State :=
  { s with ng := false, whole := 0, frac := 0, tlen := 0, tstr := padText [] }

/-- The result writes of a successful `DECODE` (R129). -/
def storeReading (r : Reading) (s : State) : State :=
  { s with
    ng := r.neg
    whole := BitVec.ofNat 12 r.whole
    frac := BitVec.ofNat 7 r.frac
    tlen := BitVec.ofNat 4 r.text.length
    tstr := padText r.text }

/-- The power-on reset (R170, R171): every element of state at its reset value, no response yet, no operation in
progress; no bus primitive, and the bus environment is not reset (R172); the parameters stay (R7, R35). Log 6. -/
def applyPowerOnReset (s : State) : State :=
  { State.reset with port := s.port, inputs := s.inputs, params := s.params }

/-- Another user of the bus leaves the environment as `env` (R6, R115, R178, R183; log 7). -/
def applyBusChange (env : BusEnv) (s : State) : State := { s with port := { s.port with env := env } }

/-- The next input, if the block can take it. The host can present a command word only when the block has answered
the one before (R33), so none is taken while a `NEXT` waits for ever (R179). -/
def fetch (s : State) : Fetched :=
  match s.inputs with
  | [] => .nothing
  | .powerOnReset :: rest => .powerOnReset { s with inputs := rest }
  | .busChange env :: rest => .busChange env { s with inputs := rest }
  | .command w :: rest => if s.stalled then .nothing else .command w { s with inputs := rest }

end Sys2Proof.Machine
end

