-- ==== Sys2Proof/Machine/Access.lean ====
section
/-!
DEFINITION. The host access operations (spec/43_access.md R140 to R142). An illegal operand answers ILLEGAL here too, though
the decoder never passes one on (log 15).
-/

namespace Sys2Proof.Machine

/-- `NOP` (R140). -/
def execNop (s : State) : Host.Outcome State Fault Refusal := .next (respond .ok 0x00 s)

/-- `WRB idx, imm8` (R141): `MemWrite(0x20 + idx, 1, imm8)`; ILLEGAL when `idx > 8`. -/
def execWrb (idx : BitVec 4) (imm8 : Byte) (s : State) : Host.Outcome State Fault Refusal :=
  match memWrite s (bufAddr idx) imm8 with
  | some s' => .next (respond .ok imm8 s')
  | none => .next (answerIllegal s)

/-- `RD addr` (R142): `respond(OK, MemRead(addr, 1))`; ILLEGAL when `addr` is unmapped. -/
def execRd (addr : Byte) (s : State) : Host.Outcome State Fault Refusal :=
  match memRead s addr with
  | some v => .next (respond .ok v s)
  | none => .next (answerIllegal s)

end Sys2Proof.Machine
end

