-- ==== Sys2Proof/Machine/CrcUnit.lean ====
section
/-!
DEFINITION. The operations of the CRC-8 unit (spec/40_crc.md R84, R85, R88, R89).
-/

namespace Sys2Proof.Machine

/-- `CRCCLR` (R84): `CRC <- CRC_INIT`. -/
def execCrcclr (s : State) : Host.Outcome State Fault Refusal :=
  .next (respond .ok 0x00 (setCrc crcInit s))

/-- `CRCUPD imm8` (R85): `CRC <- crc8_byte(CRC, imm8)`; the response carries the new value. -/
def execCrcupd (imm8 : Byte) (s : State) : Host.Outcome State Fault Refusal :=
  .next (respond .ok (crc8Byte s.crc imm8) (setCrc (crc8Byte s.crc imm8) s))

/-- `CHKA` (R88): NODATA without a found address, before any checksum (R153); else OK or ADDRCRC. -/
def execChka (s : State) : Host.Outcome State Fault Refusal :=
  if s.fd then
    if romPasses s then .next (respond .ok (romCrc s) (setCk true s))
    else .next (raiseFault .addrCrc (romCrc s) (setCk false s))
  else .next (raiseFault .noData 0x00 (setCk false s))

/-- `CHKS` (R89): OK or SPADCRC, by the nine bytes the buffer holds. -/
def execChks (s : State) : Host.Outcome State Fault Refusal :=
  if spadPasses s then .next (respond .ok (spadCrc s) (setCk true s))
  else .next (raiseFault .spadCrc (spadCrc s) (setCk false s))

end Sys2Proof.Machine
end

