-- ==== Sys2Proof/Machine/Decoder.lean ====
section
/-!
DEFINITION. The temperature decoder's operation (spec/42_decoder.md R129 to R131).
-/

namespace Sys2Proof.Machine

/-- `DECODE fam` (R129): the family test, then the checksum (R130), then the conversion; a failure clears the
results (R131). -/
def execDecode (fam : Byte) (s : State) : Host.Outcome State Fault Refusal :=
  if familyKnown s fam then
    if spadPasses s then
      .next (respond .ok (BitVec.ofNat 8 (readingOf (rawTemp s.buf)).text.length)
        (storeReading (readingOf (rawTemp s.buf)) (setCk true s)))
    else .next (raiseFault .spadCrc (spadCrc s) (clearResult (setCk false s)))
  else .next (raiseFault .unsupported fam (clearResult (setCk false s)))

end Sys2Proof.Machine
end

