-- ==== Sys2Proof/Machine/Bus.lean ====
section
/-!
DEFINITION. The bus port (spec/20_memory.md R50 to R54): the three primitives on the reference environment `WB(D)`,
on an oracle, and on the port; the byte write of R51.
-/

namespace Sys2Proof.Machine

/-- `SEARCH_CMD` (R7, R73). -/
def searchCommand : Byte := 0xF0

/-- R54: `BusReset()` on `WB(D)` answers whether `D` is not empty; the mode becomes `command`. -/
def wbReset (w : WB) : Bool × WB := (!w.devices.isEmpty, { w with mode := .command [] })

/-- R54, `BusReadBit()` on `WB(D)`: the AND of what the devices taking part drive, 1 if there are none and
in every other situation. The bit index 64, past the last address bit, is such a situation (log 10). -/
def wbReadBit (w : WB) : Bool × WB :=
  match w.mode with
  | .search taking i .id =>
    if i < 64 then (taking.all fun a => addrBit a i, { w with mode := .search taking i .cmp }) else (true, w)
  | .search taking i .cmp =>
    if i < 64 then (taking.all fun a => !addrBit a i, { w with mode := .search taking i .dir }) else (true, w)
  | _ => (true, w)

/-- The byte whose bits arrived one by one, the first least significant (R51, R54). -/
def byteOfBits : List Bool → Nat
  | [] => 0
  | b :: bs => b.toNat + 2 * byteOfBits bs

/-- R54: the mode after the command bits `received`, 1 to 8 of them. -/
def wbCommand (devices : List Address) (received : List Bool) : WBMode :=
  if received.length < 8 then .command received
  else if byteOfBits received = searchCommand.toNat then .search devices 0 .id
  else .other

/-- R54, `BusWriteBit(b)` on `WB(D)`: a command bit, or a direction that deselects the devices that differ; in
every other situation nothing changes. -/
def wbWriteBit (w : WB) (b : Bool) : WB :=
  match w.mode with
  | .command received => { w with mode := wbCommand w.devices (received ++ [b]) }
  | .search taking i .dir =>
    if i < 64 then { w with mode := .search (taking.filter fun a => addrBit a i == b) (i + 1) .id } else w
  | _ => w

/-- What the environment answers to one primitive, and the environment after it; no answer where the primitive
never completes (R52). `onWB` is the primitive on the reference bus. -/
def envAnswer (env : BusEnv) (onWB : WB → Bool × WB) : Option Bool × BusEnv :=
  match env with
  | .oracle [] => (none, .oracle [])
  | .oracle (.never :: rest) => (none, .oracle rest)
  | .oracle (.bit b :: rest) => (some b, .oracle rest)
  | .reference w => (some (onWB w).1, .reference (onWB w).2)

/-- One primitive on the port: the event is recorded when it completes (R50, R57). -/
def busPerform (p : BusPort) (onWB : WB → Bool × WB) (event : Bool → BusEvent) : BusResult :=
  match envAnswer p.env onWB with
  | (some b, env) => .returned b { env := env, log := event b :: p.log }
  | (none, env) => .hung { p with env := env }

/-- `BusReset()` (R50). -/
def busReset (p : BusPort) : BusResult := busPerform p wbReset .reset

/-- `BusReadBit()` (R50). -/
def busReadBit (p : BusPort) : BusResult := busPerform p wbReadBit .readBit

/-- `BusWriteBit(b)` (R50); it returns nothing, so the bit in its result has no meaning. -/
def busWriteBit (p : BusPort) (b : Bool) : BusResult :=
  busPerform p (fun w => (b, wbWriteBit w b)) (fun _ => .writeBit b)

/-- The writes of the bits `j`, `j + 1`, … of `v`, `n` of them (R51). -/
def busWriteBits (v : Byte) : Nat → Nat → BusPort → BusResult
  | 0, _, p => .returned false p
  | n + 1, j, p =>
    match busWriteBit p (v.getLsbD j) with
    | .returned _ p' => busWriteBits v n (j + 1) p'
    | .hung p' => .hung p'

/-- `BusWriteByte(v)` (R51): eight writes, least significant bit first. -/
def busWriteByte (p : BusPort) (v : Byte) : BusResult := busWriteBits v 8 0 p

end Sys2Proof.Machine
end

