-- ==== Sys2Proof/Machine/Scanner.lean ====
section
/-!
DEFINITION. The bus scanner (spec/41_scanner.md R101 to R111): the choice at one position, the pass over the 64 positions,
and the operations `SRST` and `NEXT`.
-/

namespace Sys2Proof.Machine

/-- R108: the direction at a discrepancy at position `k`: the earlier pass's bit before `LASTD`, 1 at `LASTD`, 0 after. -/
def discrepancyDir (lastd : Nat) (rom : Address) (k : Nat) : Bool :=
  if k < lastd then addrBit rom (k - 1) else decide (k = lastd)

/-- R102: the direction at position `k` for the pair read, which is not (1, 1): the agreed bit, or the choice of R108. -/
def searchDir (lastd : Nat) (rom : Address) (k : Nat) (id cmp : Bool) : Bool :=
  if id != cmp then id else discrepancyDir lastd rom k

/-- R108: `last_zero` after position `k`: the position itself when it is a discrepancy where 0 is taken. -/
def nextLastZero (k lastZero : Nat) (id cmp dir : Bool) : Nat :=
  if id == cmp && !dir then k else lastZero

/-- R107: the loop from position `k` on, `n` positions to go. -/
def searchBits (lastd : Nat) (rom : Address) : Nat → Nat → Address → Nat → BusPort → Pass
  | 0, _, work, lastZero, p => .complete work lastZero p
  | n + 1, k, work, lastZero, p =>
    match busReadBit p with
    | .hung p => .hung p
    | .returned id p =>
      match busReadBit p with
      | .hung p => .hung p
      | .returned cmp p =>
        if id && cmp then .abort p
        else
          match busWriteBit p (searchDir lastd rom k id cmp) with
          | .hung p => .hung p
          | .returned _ p =>
            searchBits lastd rom n (k + 1) (setAddrBit work (k - 1) (searchDir lastd rom k id cmp))
              (nextLastZero k lastZero id cmp (searchDir lastd rom k id cmp)) p

/-- R107: `work` at the start of a pass. -/
def zeroAddress : Address := #v[0, 0, 0, 0, 0, 0, 0, 0]

/-- R106, R107: one pass: the bus reset, the search command, the 64 positions. -/
def searchPass (lastd : Nat) (rom : Address) (p : BusPort) : Pass :=
  match busReset p with
  | .hung p => .hung p
  | .returned false p => .abort p
  | .returned true p =>
    match busWriteByte p searchCommand with
    | .hung p => .hung p
    | .returned _ p => searchBits lastd rom 64 1 zeroAddress 0 p

/-- R109: `PHASE` after a completed pass. -/
def phaseAfter (lastZero : Nat) : Phase := if lastZero = 0 then .exhausted else .searching

/-- The ending `complete` of R107 (R109). -/
def completePass (work : Address) (lastZero : Nat) (s : State) : State :=
  respond .ok work[0] (setRom work (setCursor (phaseAfter lastZero) (BitVec.ofNat 7 lastZero) true s))

/-- The ending `abort` of R107 (R110). -/
def abortPass (s : State) : State := raiseFault .busEmpty 0x00 (setCursor .exhausted 0 false s)

/-- The ending `nomore` of R107 (R111). -/
def noMorePass (s : State) : State := raiseFault .noMore 0x00 (setFd false s)

/-- `SRST` (R104): `PHASE <- IDLE`, `LASTD <- 0`, `FD <- 0`; no bus activity. -/
def execSrst (s : State) : Host.Outcome State Fault Refusal :=
  .next (respond .ok 0x00 (setCursor .idle 0 false s))

/-- `NEXT` (R105 to R111). A pass whose primitive never returns has written no state of the block and does not
respond (R107, R179). -/
def execNext (s : State) : Host.Outcome State Fault Refusal :=
  if s.phase = .exhausted then .next (noMorePass s)
  else
    match searchPass s.lastd.toNat s.rom s.port with
    | .complete work lastZero p => .next (completePass work lastZero (setPort p s))
    | .abort p => .next (abortPass (setPort p s))
    | .hung p => .next (setStalled true (setPort p s))

end Sys2Proof.Machine
end

