-- ==== Sys2Proof/Machine/Dispatch.lean ====
section
/-!
DEFINITION. The dispatch: one arm per operation (spec/30_encoding.md R63).
-/

namespace Sys2Proof.Machine

def exec (i : Instr) (s : State) : Host.Outcome State Fault Refusal :=
  match i with
  | .nop => Sys2Proof.Machine.execNop s
  | .crcclr => Sys2Proof.Machine.execCrcclr s
  | .crcupd imm8 => Sys2Proof.Machine.execCrcupd imm8 s
  | .chka => Sys2Proof.Machine.execChka s
  | .chks => Sys2Proof.Machine.execChks s
  | .srst => Sys2Proof.Machine.execSrst s
  | .next => Sys2Proof.Machine.execNext s
  | .decode fam => Sys2Proof.Machine.execDecode fam s
  | .wrb idx imm8 => Sys2Proof.Machine.execWrb idx imm8 s
  | .rd addr => Sys2Proof.Machine.execRd addr s

end Sys2Proof.Machine
end

