-- ==== Sys2Proof/Machine/Step.lean ====
section
/-!
DEFINITION. One step: the block takes its next input and deals with it to completion (spec/20_memory.md R56,
spec/30_encoding.md R66, R68, spec/70_reset_and_hazards.md R170).
-/

namespace Sys2Proof.Machine

/-- One step. With nothing to take the block keeps its state (R160). -/
def step (s : State) : Host.Outcome State Fault Refusal :=
  match fetch s with
  | .nothing => .next s
  | .powerOnReset s' => .next (applyPowerOnReset s')
  | .busChange env s' => .next (applyBusChange env s')
  | .command w s' =>
    match decodeWord w with
    | .ok i => exec i s'
    | .error _ => .next (answerIllegal s')

/-- The table's word presented on the command port of a block that is ready for it (log 2). -/
def State.withFetchWord (s : State) (nbits w : Nat) : State :=
  { s with inputs := .command (tableWord nbits w) :: s.inputs, stalled := false }

end Sys2Proof.Machine
end

