-- ==== Sys2Proof/Machine/Assembler.lean ====
section
/-!
DEFINITION. The textual form of an operation, the pseudo-operations, and the assembler that reads both (spec/30_encoding.md
R69, R70; spec/00_scope.md R9). The block knows nothing of them: they name operations and lists of operations.
-/

namespace Sys2Proof.Machine

/-- A hexadecimal digit, capital letters (R9, R69). -/
def hexDigit (n : Nat) : Char := if n < 10 then Char.ofNat (48 + n) else Char.ofNat (55 + n)

/-- A byte as `0x` and two digits (R69: bytes and addresses customarily in hexadecimal). -/
def hexByte (b : Byte) : String := "0x" ++ String.ofList [hexDigit (b.toNat / 16), hexDigit (b.toNat % 16)]

/-- A word as `0x` and four digits (R69). -/
def hexWord (w : Word) : String :=
  "0x" ++ String.ofList [hexDigit (w.toNat / 4096), hexDigit (w.toNat / 256 % 16), hexDigit (w.toNat / 16 % 16),
    hexDigit (w.toNat % 16)]

/-- R69: the mnemonic in capitals, then the operands separated by a comma; `idx` in decimal. -/
def instrText : Instr → String
  | .nop => "NOP"
  | .crcclr => "CRCCLR"
  | .crcupd imm8 => "CRCUPD " ++ hexByte imm8
  | .chka => "CHKA"
  | .chks => "CHKS"
  | .srst => "SRST"
  | .next => "NEXT"
  | .decode fam => "DECODE " ++ hexByte fam
  | .wrb idx imm8 => "WRB " ++ toString idx.toNat ++ ", " ++ hexByte imm8
  | .rd addr => "RD " ++ hexByte addr

/-- R69: the line for a word: its operation, or `.word` for an illegal one. -/
def wordText (w : Word) : String :=
  match decodeWord w with
  | .ok i => instrText i
  | .error _ => ".word " ++ hexWord w

/-- `CRCSEQ b0, ..., bn-1` (R70); with no byte, `CRCCLR` alone. -/
def pseudoCrcSeq (s : List Byte) : List Instr := .crcclr :: s.map .crcupd

/-- `LDSPAD b0, ..., b8` (R70). -/
def pseudoLdSpad (b : Scratchpad) : List Instr :=
  [.wrb 0 b[0], .wrb 1 b[1], .wrb 2 b[2], .wrb 3 b[3], .wrb 4 b[4], .wrb 5 b[5], .wrb 6 b[6], .wrb 7 b[7], .wrb 8 b[8]]

/-- `RDADDR` (R70). -/
def pseudoRdAddr : List Instr :=
  [.rd 0x10, .rd 0x11, .rd 0x12, .rd 0x13, .rd 0x14, .rd 0x15, .rd 0x16, .rd 0x17]

/-- `RDTSTR` (R70). -/
def pseudoRdTstr : List Instr :=
  [.rd 0x30, .rd 0x31, .rd 0x32, .rd 0x33, .rd 0x34, .rd 0x35, .rd 0x36, .rd 0x37]

/-- `RDSTAT` (R70). -/
def pseudoRdStat : List Instr := [.rd 0x01]

/-- The value of one digit, up to 15 (R9). -/
def digitValue (c : Char) : Option Nat :=
  if 48 ≤ c.toNat ∧ c.toNat ≤ 57 then some (c.toNat - 48)
  else if 65 ≤ c.toNat ∧ c.toNat ≤ 70 then some (c.toNat - 55)
  else if 97 ≤ c.toNat ∧ c.toNat ≤ 102 then some (c.toNat - 87)
  else none

/-- The value of the digits in the given base after the value `n` so far; `none` where one is no digit of the base. -/
def digitsFrom (base n : Nat) : List Char → Option Nat
  | [] => some n
  | c :: cs =>
    match digitValue c with
    | none => none
    | some d => if d < base then digitsFrom base (n * base + d) cs else none

/-- A nonempty string of digits. -/
def digitsValue (base : Nat) : List Char → Option Nat
  | [] => none
  | cs => digitsFrom base 0 cs

/-- A numeral of R9: `0x` hexadecimal, `0b` binary, otherwise decimal. -/
def numeral : List Char → Option Nat
  | '0' :: 'x' :: cs => digitsValue 16 cs
  | '0' :: 'b' :: cs => digitsValue 2 cs
  | cs => digitsValue 10 cs

/-- A blank between the parts of a line. -/
def isBlank (c : Char) : Bool := c == ' ' || c == '\t'

/-- The text without the blanks around it. -/
def trimBlanks (cs : List Char) : List Char := ((cs.dropWhile isBlank).reverse.dropWhile isBlank).reverse

/-- The parts of a text between its commas. -/
def splitCommas : List Char → List (List Char)
  | [] => [[]]
  | c :: cs =>
    if c = ',' then [] :: splitCommas cs
    else
      match splitCommas cs with
      | [] => [[c]]
      | part :: parts => (c :: part) :: parts

/-- The operands of a line: numerals separated by commas; none at all where the text is empty (R69). -/
def operandsOf (cs : List Char) : Option (List Nat) :=
  match trimBlanks cs with
  | [] => some []
  | text => (splitCommas text).mapM fun part => numeral (trimBlanks part)

/-- A byte operand, 0 to 255. -/
def byteOperand (n : Nat) : Option Byte := if n < 256 then some (BitVec.ofNat 8 n) else none

/-- The words of a list of operations, where each of them is legal. -/
def wordsOf (is : List Instr) : Option (List Word) :=
  if is.all Instr.wellFormed then some (is.map encode) else none

/-- `LDSPAD` of the bytes given, which must be nine (R70). -/
def ldSpadWords : List Byte → Option (List Word)
  | [b0, b1, b2, b3, b4, b5, b6, b7, b8] => wordsOf (pseudoLdSpad #v[b0, b1, b2, b3, b4, b5, b6, b7, b8])
  | _ => none

/-- The words a mnemonic and its operands stand for: an operation (R69), `.word` (R69) or a pseudo-operation (R70). -/
def wordsOfLine (mnemonic : List Char) (operands : List Nat) : Option (List Word) :=
  if mnemonic = "CRCSEQ".toList then (operands.mapM byteOperand).bind fun bs => wordsOf (pseudoCrcSeq bs)
  else if mnemonic = "LDSPAD".toList then (operands.mapM byteOperand).bind ldSpadWords
  else
    match operands with
    | [] =>
      if mnemonic = "NOP".toList then wordsOf [.nop]
      else if mnemonic = "CRCCLR".toList then wordsOf [.crcclr]
      else if mnemonic = "CHKA".toList then wordsOf [.chka]
      else if mnemonic = "CHKS".toList then wordsOf [.chks]
      else if mnemonic = "SRST".toList then wordsOf [.srst]
      else if mnemonic = "NEXT".toList then wordsOf [.next]
      else if mnemonic = "RDADDR".toList then wordsOf pseudoRdAddr
      else if mnemonic = "RDTSTR".toList then wordsOf pseudoRdTstr
      else if mnemonic = "RDSTAT".toList then wordsOf pseudoRdStat
      else none
    | [n] =>
      if mnemonic = ".word".toList then if n < 65536 then some [BitVec.ofNat 16 n] else none
      else
        match byteOperand n with
        | none => none
        | some b =>
          if mnemonic = "CRCUPD".toList then wordsOf [.crcupd b]
          else if mnemonic = "DECODE".toList then wordsOf [.decode b]
          else if mnemonic = "RD".toList then wordsOf [.rd b]
          else none
    | [idx, n] =>
      match byteOperand n with
      | none => none
      | some b =>
        if mnemonic = "WRB".toList ∧ idx < 16 then wordsOf [.wrb (BitVec.ofNat 4 idx) b] else none
    | _ => none

/-- The words of one line: a comment starts at `;` (R69); a line without anything else has no word; `none` where the line
is not in the syntax of R69 or its operation is illegal. -/
def assembleLine (line : String) : Option (List Word) :=
  match trimBlanks (line.toList.takeWhile fun c => c != ';') with
  | [] => some []
  | text =>
    match operandsOf (text.dropWhile fun c => !isBlank c) with
    | none => none
    | some operands => wordsOfLine (text.takeWhile fun c => !isBlank c) operands

/-- A program: its lines, top to bottom (R69). -/
def assembleProgram : List String → Option (List Word)
  | [] => some []
  | line :: lines =>
    match assembleLine line, assembleProgram lines with
    | some ws, some rest => some (ws ++ rest)
    | _, _ => none

end Sys2Proof.Machine
end

