-- ==== Sys2Proof/Safety.lean ====
section
/-!
DEFINITION. What the claims speak of: the invariants of spec/10_state.md R36, the well-formed reference bus
(spec/20_memory.md R53), runs of operations, the search key and the order it gives (spec/41_scanner.md R114).
-/

namespace Sys2Proof.Machine

/-- R36, the scanner's clauses: what `PHASE`, `LASTD` and `FD` say of one another. -/
abbrev CursorInv (s : State) : Prop :=
  (s.phase = .idle → s.lastd = 0 ∧ s.fd = false) ∧
  (s.phase = .searching → 1 ≤ s.lastd.toNat ∧ s.lastd.toNat ≤ 64 ∧ s.fd = true) ∧
  (s.phase = .exhausted → s.lastd = 0) ∧
  (s.fd = true → s.phase = .searching ∨ s.phase = .exhausted)

/-- R36, the decoder's clauses: what `TLEN`, `NG`, `WHOLE`, `FRAC` and `TSTR` say of one another. -/
abbrev ResultInv (s : State) : Prop :=
  (s.tlen.toNat = 0 ∨ (4 ≤ s.tlen.toNat ∧ s.tlen.toNat ≤ 8)) ∧
  (s.tlen.toNat = 0 → s.whole = 0 ∧ s.frac = 0 ∧ s.ng = false ∧ s.tstr = #v[0, 0, 0, 0, 0, 0, 0, 0]) ∧
  (s.tlen.toNat ≠ 0 → s.frac.toNat ≤ 99 ∧ s.whole.toNat ≤ 2048 ∧
    (∀ j : Fin 8, s.tlen.toNat ≤ j.val → s.tstr[j] = 0) ∧
    s.tstr.toList.take s.tlen.toNat = tstrOf s.ng s.whole.toNat s.frac.toNat) ∧
  (s.ng = true → s.tlen.toNat ≠ 0 ∧ 6 ≤ 100 * s.whole.toNat + s.frac.toNat)

/-- R36: the invariants of every reachable state. -/
abbrev Inv (s : State) : Prop := CursorInv s ∧ ResultInv s

/-- R53: what the state of `WB(D)` is: distinct devices, up to 7 command bits, participants from `D`, a bit index
up to 64 (below 64 within a position). -/
def WBModeWf (devices : List Address) : WBMode → Prop
  | .idle => True
  | .command received => received.length < 8
  | .search taking i st => List.Sublist taking devices ∧ i ≤ 64 ∧ (st ≠ .id → i < 64)
  | .other => True

/-- R53: the set `D` of distinct devices and its mode. -/
def WBWf (w : WB) : Prop := w.devices.Nodup ∧ WBModeWf w.devices w.mode

/-- An oracle is any list of answers; a reference bus is as R53 says. -/
def BusEnvWf : BusEnv → Prop
  | .oracle _ => True
  | .reference w => WBWf w

/-- An input that changes the bus leaves an environment as R53 says. -/
def HostInputWf : HostInput → Prop
  | .busChange env => BusEnvWf env
  | .command _ => True
  | .powerOnReset => True

/-- The environment on the port and every environment the inputs still bring are as R53 says. -/
def BusInv (s : State) : Prop := BusEnvWf s.port.env ∧ ∀ x ∈ s.inputs, HostInputWf x

/-- R41: the mapped addresses, as the table lists them. -/
abbrev MappedAddress (a : Nat) : Prop :=
  a ≤ 0x07 ∨ (0x10 ≤ a ∧ a ≤ 0x17) ∨ (0x20 ≤ a ∧ a ≤ 0x28) ∨ (0x30 ≤ a ∧ a ≤ 0x37)

/-- R64: a response port that holds `code * 256 + data`. -/
def answer (code : Nat) (data : Byte) : Option Word := some (BitVec.ofNat 16 (code * 256 + data.toNat))

/-- R66, R152: the block refuses `w` whole: whatever its state, a block that is ready for a command word takes it,
answers 0x0700 and changes nothing else, the bus port included. -/
def RefusesWord (w : Word) : Prop :=
  ∀ (s : State) (rest : List HostInput), s.inputs = .command w :: rest → s.stalled = false →
    step s = .next { s with inputs := rest, resp := some 0x0700 }

/-- The operations `is` executed one after the other (R56), stopping where one does not answer a next state. -/
def execAll : List Instr → State → Host.Outcome State Fault Refusal
  | [], s => .next s
  | i :: is, s =>
    match exec i s with
    | .next s' => execAll is s'
    | .fault f => .fault f
    | .refused r => .refused r

/-- The bytes the `CRCUPD` operations among `is` fold in, in order (R85). -/
def updatedBytes : List Instr → List Byte
  | [] => []
  | .crcupd b :: is => b :: updatedBytes is
  | _ :: is => updatedBytes is

/-- The answers of an oracle to the eight command writes of a pass; a write ignores the bit (R106). -/
def commandAnswers (ignored : List Bool) : List BusAnswer := ignored.map .bit

/-- The answers of an oracle at one search position: the pair (`id`, `cmp`), then the answer to the write, which
ignores it (R107). -/
def positionAnswers (q : Bool × Bool × Bool) : List BusAnswer := [.bit q.1, .bit q.2.1, .bit q.2.2]

/-- R108: the direction a pass that starts in `s` takes at the address bit `i` (position `i + 1`) for the pair of `q`,
which is not (1, 1): the agreed bit, else the earlier pass's bit before `LASTD`, 1 at it, 0 after it. -/
def pathDirection (s : State) (i : Nat) (q : Bool × Bool × Bool) : Bool :=
  if q.1 ≠ q.2.1 then q.1
  else if i + 1 < s.lastd.toNat then addrBit s.rom i
  else if i + 1 = s.lastd.toNat then true
  else false

/-- The positions of a pass that starts in `s` and reads the pairs of `qs`: the pair and the direction taken (R108). -/
def pathPositions (s : State) (qs : List (Bool × Bool × Bool)) : List (Bool × Bool × Bool) :=
  qs.mapIdx fun i q => (q.1, q.2.1, pathDirection s i q)

/-- All the answers a pass asks for when `qs` are its positions (R106, R107). -/
def passAnswers (ignored : List Bool) (qs : List (Bool × Bool × Bool)) : List BusAnswer :=
  .bit true :: commandAnswers ignored ++ qs.flatMap positionAnswers

/-- R51, R73: the eight writes of the search command 0xF0, in the order they are performed. -/
def searchCommandEvents : List BusEvent :=
  [.writeBit false, .writeBit false, .writeBit false, .writeBit false,
   .writeBit true, .writeBit true, .writeBit true, .writeBit true]

/-- R107: the primitives of one resolved search position, in the order they are performed: the two reads and the
write of the direction taken. -/
def positionEvents (q : Bool × Bool × Bool) : List BusEvent := [.readBit q.1, .readBit q.2.1, .writeBit q.2.2]

/-- R107, R112: the primitives of a pass up to the end of the positions `qs`, in the order they are performed. -/
def passEvents (qs : List (Bool × Bool × Bool)) : List BusEvent :=
  .reset true :: searchCommandEvents ++ qs.flatMap positionEvents

/-- R108: the highest position of `qs` (counted from 1) that is a discrepancy where 0 was taken; 0 if there is none. -/
def lastZeroOf (qs : List (Bool × Bool × Bool)) : Nat :=
  (qs.mapIdx fun i q => if q.1 = q.2.1 ∧ q.2.2 = false then i + 1 else 0).foldl max 0

/-- R114: the bits of an address in search order, the first-searched first. -/
def searchOrderBits (a : Address) : List Bool := (List.range 64).map (addrBit a)

/-- The number whose binary digits are `bits`, the first one most significant. -/
def bitsValue : List Bool → Nat
  | [] => 0
  | b :: bs => b.toNat * 2 ^ bs.length + bitsValue bs

/-- R114: the search key `K(a)`. -/
def searchKey (a : Address) : Nat := bitsValue (searchOrderBits a)

/-- R114: `sorted` is the set `D` in strictly ascending order of the search key. -/
abbrev AscendingByKey (sorted devices : List Address) : Prop :=
  sorted.Perm devices ∧ sorted.Pairwise fun a b => searchKey a < searchKey b

end Sys2Proof.Machine
end

