-- ==== Sys2Proof/Certificates/Slice0/Obligations.lean ====
section
/-!
DEFINITION. The statements about the block, from the numbered rules of spec/. Each docstring says which rule or
section it formalises; "the spec's own inference" marks a law that the spec derives from its rules.
-/

open Sys2Proof Sys2Proof.Machine

/-! ## Encoding (spec/30_encoding.md) -/

/-- The decoder and the encoder agree on every word and every operation: a word decodes to an operation exactly when
the operation is legal and the word is its encoding (sections 1, 2 and 4). -/
def Obligations.DecodeEncodeAgree : Prop :=
  ∀ (i : Instr) (w : Word), decodeWord w = .ok i ↔ i.WellFormed ∧ encode i = w

/-- R63: `match` and `mask` select the operation; for `WRB` the legality of `idx`, and for `RD` that of `addr`, is a
further check; the codes 0xA to 0xF are refused. -/
def Obligations.OpcodeMapSelectsByMatchAndMask : Prop :=
  ∀ w : Word,
    (decodeWord w = .ok .nop ↔ w &&& 0xFFFF = 0x0000) ∧
    (decodeWord w = .ok .crcclr ↔ w &&& 0xFFFF = 0x1000) ∧
    (∀ v, decodeWord w = .ok (.crcupd v) ↔ w &&& 0xFF00 = 0x2000 ∧ v.toNat = w.toNat % 256) ∧
    (decodeWord w = .ok .chka ↔ w &&& 0xFFFF = 0x3000) ∧
    (decodeWord w = .ok .chks ↔ w &&& 0xFFFF = 0x4000) ∧
    (decodeWord w = .ok .srst ↔ w &&& 0xFFFF = 0x5000) ∧
    (decodeWord w = .ok .next ↔ w &&& 0xFFFF = 0x6000) ∧
    (∀ v, decodeWord w = .ok (.decode v) ↔ w &&& 0xFF00 = 0x7000 ∧ v.toNat = w.toNat % 256) ∧
    (∀ idx v, decodeWord w = .ok (.wrb idx v) ↔
      w &&& 0xF000 = 0x8000 ∧ idx.toNat = w.toNat / 256 % 16 ∧ v.toNat = w.toNat % 256 ∧ idx.toNat ≤ 8) ∧
    (∀ a, decodeWord w = .ok (.rd a) ↔
      w &&& 0xFF00 = 0x9000 ∧ a.toNat = w.toNat % 256 ∧ MappedAddress a.toNat) ∧
    (0xA000 ≤ w.toNat → RefusesWord w)

/-- R66, R67: the words that are illegal are exactly those R66 lists, each is refused whole, every other word is an
operation of R63, and 2855 words are legal. -/
def Obligations.IllegalWordsAreRefusedWhole : Prop :=
  (∀ w : Word, (∃ e, decodeWord w = .error e) ↔
    10 ≤ w.toNat / 4096 ∨
    (w.toNat / 4096 ∈ [0, 1, 3, 4, 5, 6] ∧ w.toNat % 4096 ≠ 0) ∨
    (w.toNat / 4096 ∈ [2, 7, 9] ∧ w.toNat / 256 % 16 ≠ 0) ∨
    (w.toNat / 4096 = 8 ∧ 8 < w.toNat / 256 % 16) ∨
    (w.toNat / 4096 = 9 ∧ ¬ MappedAddress (w.toNat % 256))) ∧
  (∀ w e, decodeWord w = .error e → RefusesWord w) ∧
  ((List.range 65536).filter fun n => (decodeTableWord 16 n).isSome).length = 2855

/-- Words written out from the opcode map decode to the operations they stand for (sanity). -/
def Obligations.WrittenOutWordsDecode : Prop :=
  decodeWord 0b0000000000000000 = .ok .nop ∧
  decodeWord 0b0001000000000000 = .ok .crcclr ∧
  decodeWord 0b0010000000011100 = .ok (.crcupd 0x1C) ∧
  decodeWord 0b0011000000000000 = .ok .chka ∧
  decodeWord 0b0100000000000000 = .ok .chks ∧
  decodeWord 0b0101000000000000 = .ok .srst ∧
  decodeWord 0b0110000000000000 = .ok .next ∧
  decodeWord 0b0111000000101000 = .ok (.decode 0x28) ∧
  decodeWord 0b1000001101000110 = .ok (.wrb 3 0x46) ∧
  decodeWord 0b1001000000000111 = .ok (.rd 0x07)

/-- The text of every word, an operation's line or `.word`, assembles back to that word; `CRCSEQ` and `LDSPAD` assemble to
their expansions (30_encoding.md section 5, the textual form and the pseudo-operations; the details of the text are the
model's choice, log 16). -/
def Obligations.AssemblerReadsTheTextOfEveryWord : Prop :=
  (∀ w : Word, assembleLine (wordText w) = some [w]) ∧
  (∀ bs : List Byte, wordsOfLine "CRCSEQ".toList (bs.map BitVec.toNat) =
    some (0x1000 :: bs.map fun b => BitVec.ofNat 16 (0x2000 + b.toNat))) ∧
  (∀ b : Scratchpad, wordsOfLine "LDSPAD".toList (b.toList.map BitVec.toNat) =
    some (b.toList.mapIdx fun i v => BitVec.ofNat 16 (0x8000 + 256 * i + v.toNat)))

/-- R64: every operation ends by driving one response word, bits 15 to 11 zero, bits 10 to 8 the code, bits 7 to 0 the
data. A `NEXT` that does not end has no response (R179); every other operation ends. -/
def Obligations.EveryOperationDrivesOneResponse : Prop :=
  (∀ (i : Instr) (s : State), i ≠ .next → s.stalled = false → ∃ t code data, exec i s = .next t ∧
    t.stalled = false ∧ code < 8 ∧ t.resp = answer code data) ∧
  (∀ s t : State, s.stalled = false → exec .next s = .next t → t.stalled = false →
    ∃ code data, code < 8 ∧ t.resp = answer code data) ∧
  (∀ (code : Nat) (data : Byte) (w : Word), code < 8 → answer code data = some w →
    w.extractLsb' 11 5 = 0 ∧ (w.extractLsb' 8 3).toNat = code ∧ w.extractLsb' 0 8 = data)

/-! ## Steps, reset and invariants (spec/10_state.md, 20_memory.md section 6, 70_reset_and_hazards.md) -/

/-- A step runs the decoded operation: when the next input is a word that decodes to `i` and the block is ready for
it, the step is `exec i` at the state with that input taken (20_memory.md section 6; the list of inputs is the model's
choice, log 2). -/
def Obligations.StepRunsDecodedOperation : Prop :=
  ∀ (s : State) (w : Word) (rest : List HostInput) (i : Instr),
    s.inputs = .command w :: rest → s.stalled = false → decodeWord w = .ok i →
    i.WellFormed ∧ step s = exec i { s with inputs := rest }

/-- With no input the block keeps its state; while a `NEXT` waits for a primitive that never returns, no command word
is accepted (60_exceptions.md sections 3 and 4, 70_reset_and_hazards.md section 3). That the wait is a state the
machine stays in is the model's choice, log 4. -/
def Obligations.StepWaits : Prop :=
  (∀ s : State, s.inputs = [] → step s = .next s) ∧
  (∀ (s : State) (w : Word) (rest : List HostInput),
    s.inputs = .command w :: rest → s.stalled = true → step s = .next s)

/-- R37: every element after a power-on reset. -/
def Obligations.ResetLeavesTheTable : Prop :=
  State.reset.crc = 0x00 ∧ State.reset.ck = false ∧ State.reset.fd = false ∧ State.reset.ng = false ∧
  State.reset.phase = .idle ∧ State.reset.lastd = 0 ∧ State.reset.rom.toList = [0, 0, 0, 0, 0, 0, 0, 0] ∧
  State.reset.buf.toList = [0, 0, 0, 0, 0, 0, 0, 0, 0] ∧ State.reset.whole = 0 ∧ State.reset.frac = 0 ∧
  State.reset.tlen = 0 ∧ State.reset.tstr.toList = [0, 0, 0, 0, 0, 0, 0, 0]

/-- The power-on reset gives every element the value of the table, from every state and also while a `NEXT` waits; it
performs no bus primitive and does not reset the bus environment (70_reset_and_hazards.md section 1). That it is an input
of the model, and what it does to the model's own fields, is the model's choice, log 6. -/
def Obligations.PowerOnResetFromEveryState : Prop :=
  ∀ (s : State) (rest : List HostInput), s.inputs = .powerOnReset :: rest →
    ∃ t, step s = .next t ∧
      t.crc = 0x00 ∧ t.ck = false ∧ t.fd = false ∧ t.ng = false ∧ t.phase = .idle ∧ t.lastd = 0 ∧
      t.rom.toList = [0, 0, 0, 0, 0, 0, 0, 0] ∧ t.buf.toList = [0, 0, 0, 0, 0, 0, 0, 0, 0] ∧
      t.whole = 0 ∧ t.frac = 0 ∧ t.tlen = 0 ∧ t.tstr.toList = [0, 0, 0, 0, 0, 0, 0, 0] ∧
      t.stalled = false ∧ t.port = s.port ∧ t.params = s.params ∧ t.inputs = rest

/-- The invariants hold right after reset (10_state.md section 8; the bus at reset is the model's choice, log 3). -/
def Obligations.ResetSatisfiesInvariants : Prop := Inv State.reset ∧ BusInv State.reset

/-- Every step from a state with the invariants of 10_state.md section 8 leaves them true, whatever the inputs and the
bus are (the spec's own inference, "by induction over operations"). -/
def Obligations.EveryStepKeepsInvariants : Prop :=
  ∀ s t : State, Inv s → step s = .next t → Inv t

/-- Every step leaves the reference bus a state that 20_memory.md section 5 describes. That other users of the bus are
inputs is the model's choice, log 7. -/
def Obligations.EveryStepKeepsReferenceBus : Prop :=
  ∀ s t : State, BusInv s → step s = .next t → BusInv t

/-- No step faults or refuses: every fault of the spec is a response, and the block goes on (60_exceptions.md section 2).
That the model's fault type is empty is the model's choice, log 14. -/
def Obligations.EveryStepAnswersNext : Prop := ∀ s : State, ∃ t, step s = .next t

/-- The "Written by" column of 10_state.md section 1, for every operation and every state; the parameters and the
host's inputs are written by none. -/
def Obligations.ElementsWrittenOnlyByTheirOperations : Prop :=
  ∀ (i : Instr) (s t : State), exec i s = .next t →
    (t.crc ≠ s.crc → i = .crcclr ∨ ∃ v, i = .crcupd v) ∧
    (t.ck ≠ s.ck → i = .chka ∨ i = .chks ∨ ∃ fam, i = .decode fam) ∧
    (t.fd ≠ s.fd → i = .next ∨ i = .srst) ∧
    (t.phase ≠ s.phase ∨ t.lastd ≠ s.lastd → i = .next ∨ i = .srst) ∧
    (t.rom ≠ s.rom → i = .next) ∧
    (t.buf ≠ s.buf → ∃ idx v, i = .wrb idx v) ∧
    (t.ng ≠ s.ng ∨ t.whole ≠ s.whole ∨ t.frac ≠ s.frac ∨ t.tlen ≠ s.tlen ∨ t.tstr ≠ s.tstr → ∃ fam, i = .decode fam) ∧
    (t.port ≠ s.port ∨ t.stalled ≠ s.stalled → i = .next) ∧
    t.params = s.params ∧ t.inputs = s.inputs

/-- A change of the bus by its other users leaves the block alone (20_memory.md section 3). That such changes are
inputs of the model is the model's choice, log 7. -/
def Obligations.BusChangeLeavesTheBlockAlone : Prop :=
  ∀ (s : State) (env : BusEnv) (rest : List HostInput), s.inputs = .busChange env :: rest →
    step s = .next { s with inputs := rest, port := { env := env, log := s.port.log } }

/-! ## The CRC-8 unit (spec/40_crc.md) -/

/-- R81: the byte is XORed into the register; then eight times the register shifts right by one and, if the bit shifted
out was 1, 0x8C is XORed in. -/
def Obligations.CrcByteIsEightShifts : Prop :=
  ∀ c b : Byte,
    let shift := fun x : Byte => if x[0] then (x >>> 1) ^^^ 0x8C else x >>> 1
    crc8Byte c b = shift (shift (shift (shift (shift (shift (shift (shift (c ^^^ b))))))))

/-- The checksum is the remainder of the message polynomial times x^8 by x^8 + x^5 + x^4 + 1 over the field of two
elements: the message's bits in the order they are processed, least significant bit of each byte first, are
coefficients of falling degree, and bit 7 - j of the register is the coefficient of x^j (40_crc.md section 1; that the
tap mask 0x8C stands for this polynomial is the spec's own inference). -/
def Obligations.ChecksumIsPolynomialRemainder : Prop :=
  ∀ s : List Byte,
    (∑ j ∈ Finset.range 8, if (crc8 s).getLsbD (7 - j) then (Polynomial.X : Polynomial (ZMod 2)) ^ j else 0) =
    ((s.flatMap fun b => (List.range 8).map b.getLsbD).foldl
        (fun p d => p * Polynomial.X + if d then 1 else 0) (0 : Polynomial (ZMod 2)) * Polynomial.X ^ 8) %ₘ
      (Polynomial.X ^ 8 + Polynomial.X ^ 5 + Polynomial.X ^ 4 + 1)

/-- R82: the function is the fold of the byte step from `CRC_INIT` = 0x00, with no final XOR. -/
def Obligations.ChecksumFoldsFromZero : Prop :=
  crc8 [] = 0x00 ∧ ∀ (s : List Byte) (b : Byte), crc8 (s ++ [b]) = crc8Byte (crc8 s) b

/-- The bit-serial form and the table form equal the byte-wise definition (40_crc.md section 1, the spec's own
inference). -/
def Obligations.SerialAndTableFormsAgree : Prop :=
  (∀ (c : Byte) (s : List Byte), crcFold c s = crcSerial c s) ∧
  (∀ (c : Byte) (s : List Byte), crcFold c s = s.foldl (fun r b => crcTable (r ^^^ b)) c)

/-- Composition and residue (40_crc.md section 2 (b), (c), the spec's own inference): a record passes its check exactly
when the checksum of the whole record is zero. -/
def Obligations.ChecksumResidueIsZero : Prop :=
  (∀ s t : List Byte, crc8 (s ++ t) = crcFold (crc8 s) t) ∧
  (∀ s : List Byte, crc8 (s ++ [crc8 s]) = 0x00) ∧
  (∀ r : List Byte, r ≠ [] → (recordPasses r = true ↔ crc8 r = 0x00))

/-- Linearity over XOR (40_crc.md section 2 (d), the spec's own inference). -/
def Obligations.ChecksumIsLinear : Prop :=
  ∀ s t : List Byte, s.length = t.length →
    crc8 (List.zipWith (fun a b => a ^^^ b) s t) = crc8 s ^^^ crc8 t

/-- Single-bit errors (40_crc.md section 2 (e), the spec's own inference from the source's "no false acceptance"): a
record of any length that passes fails after a flip of any one bit; so do the records `CHKA` and `CHKS` check. -/
def Obligations.SingleBitFlipsFailTheCheck : Prop :=
  (∀ (r : List Byte) (i j : Nat), recordPasses r = true → i < r.length → j < 8 →
    recordPasses (r.modify i fun b => b ^^^ (1#8 <<< j)) = false) ∧
  (∀ (s : State) (i : Fin 9) (j : Nat), crc8 (s.buf.toList.take 8) = s.buf[8] → j < 8 →
    ∃ t data, exec .chks { s with buf := s.buf.set i (s.buf[i] ^^^ (1#8 <<< j)) } = .next t ∧
      t.ck = false ∧ t.resp = answer 4 data) ∧
  (∀ (s : State) (i : Fin 8) (j : Nat), s.fd = true → crc8 (s.rom.toList.take 7) = s.rom[7] → j < 8 →
    ∃ t data, exec .chka { s with rom := s.rom.set i (s.rom[i] ^^^ (1#8 <<< j)) } = .next t ∧
      t.ck = false ∧ t.resp = answer 2 data)

/-- All-zero records pass (40_crc.md section 2 (f), 70_reset_and_hazards.md section 3, the spec's own inference): the
checksum of zeros is zero, the zero address passes `CHKA`, the zero scratchpad passes `CHKS` and decodes to "0.00". -/
def Obligations.ZeroRecordsPass : Prop :=
  (∀ n : Nat, crc8 (List.replicate n 0x00) = 0x00) ∧
  (∀ s : State, s.fd = true → s.rom = #v[0, 0, 0, 0, 0, 0, 0, 0] →
    exec .chka s = .next { s with ck := true, resp := answer 0 0x00 }) ∧
  (∀ s : State, s.buf = #v[0, 0, 0, 0, 0, 0, 0, 0, 0] →
    exec .chks s = .next { s with ck := true, resp := answer 0 0x00 }) ∧
  (∀ (s : State) (fam : Byte), s.buf = #v[0, 0, 0, 0, 0, 0, 0, 0, 0] →
    fam = s.params.familyA ∨ fam = s.params.familyB →
    exec (.decode fam) s = .next { s with
      ck := true, ng := false, whole := 0, frac := 0, tlen := 4,
      tstr := #v[0x30, 0x2E, 0x30, 0x30, 0, 0, 0, 0], resp := answer 0 0x04 })

/-- R84, `CRCCLR`: its effect and frame, its word, its illegal neighbours, and that it is idempotent. -/
def Obligations.CrcclrClearsTheRegister : Prop :=
  (∀ s : State, exec .crcclr s = .next { s with crc := 0x00, resp := answer 0 0x00 }) ∧
  decodeWord 0x1000 = .ok .crcclr ∧
  (∀ w : Word, w.toNat / 4096 = 1 → w ≠ 0x1000 → RefusesWord w) ∧
  (∀ s t : State, exec .crcclr s = .next t → exec .crcclr t = .next t)

/-- R85, `CRCUPD imm8`: its effect and frame, its words, its illegal neighbours, its corner cases and example, and that
after `CRCCLR` the register holds the checksum of the bytes folded in, whatever other operations stand between (this last
clause is the spec's own inference: R85 marks it derived). -/
def Obligations.CrcupdFoldsAndStreams : Prop :=
  (∀ (s : State) (v : Byte), exec (.crcupd v) s =
    .next { s with crc := crc8Byte s.crc v, resp := answer 0 (crc8Byte s.crc v) }) ∧
  (∀ v : Byte, decodeWord (BitVec.ofNat 16 (0x2000 + v.toNat)) = .ok (.crcupd v)) ∧
  (∀ w : Word, w.toNat / 4096 = 2 → w.toNat / 256 % 16 ≠ 0 → RefusesWord w) ∧
  (∀ v : Byte, crc8Byte v v = 0x00) ∧
  (List.range 8).map (fun n => crcShifts (n + 1) 0x01) = [0x8C, 0x46, 0x23, 0x9D, 0xC2, 0x61, 0xBC, 0x5E] ∧
  (∀ (is : List Instr) (s : State), .crcclr ∉ is →
    ∃ t, execAll (.crcclr :: is) s = .next t ∧ t.crc = crc8 (updatedBytes is))

/-- R88, `CHKA`: NODATA without a found address, OK or ADDRCRC by the checksum of the seven bytes, `CK` and the response
written and nothing else; its word, its illegal neighbours; repeating it changes nothing. -/
def Obligations.ChkaChecksTheAddress : Prop :=
  (∀ s : State, s.fd = false → exec .chka s = .next { s with ck := false, resp := answer 6 0x00 }) ∧
  (∀ s : State, s.fd = true → crc8 (s.rom.toList.take 7) = s.rom[7] →
    exec .chka s = .next { s with ck := true, resp := answer 0 (crc8 (s.rom.toList.take 7)) }) ∧
  (∀ s : State, s.fd = true → crc8 (s.rom.toList.take 7) ≠ s.rom[7] →
    exec .chka s = .next { s with ck := false, resp := answer 2 (crc8 (s.rom.toList.take 7)) }) ∧
  decodeWord 0x3000 = .ok .chka ∧
  (∀ w : Word, w.toNat / 4096 = 3 → w ≠ 0x3000 → RefusesWord w) ∧
  (∀ s t : State, exec .chka s = .next t → exec .chka t = .next t) ∧
  crc8 [0x28, 0x01, 0x00, 0x00, 0x00, 0x00, 0x00] = 0x29

/-- R89, `CHKS`: OK or SPADCRC by the checksum of the eight bytes, `CK` and the response written and nothing else; its
word, its illegal neighbours, its examples; repeating it changes nothing. -/
def Obligations.ChksChecksTheScratchpad : Prop :=
  (∀ s : State, crc8 (s.buf.toList.take 8) = s.buf[8] →
    exec .chks s = .next { s with ck := true, resp := answer 0 (crc8 (s.buf.toList.take 8)) }) ∧
  (∀ s : State, crc8 (s.buf.toList.take 8) ≠ s.buf[8] →
    exec .chks s = .next { s with ck := false, resp := answer 4 (crc8 (s.buf.toList.take 8)) }) ∧
  decodeWord 0x4000 = .ok .chks ∧
  (∀ w : Word, w.toNat / 4096 = 4 → w ≠ 0x4000 → RefusesWord w) ∧
  (∀ s t : State, exec .chks s = .next t → exec .chks t = .next t) ∧
  crc8 [0, 0, 0, 0, 0, 0, 0, 0] = 0x00 ∧
  crc8 [0x50, 0x05, 0x4B, 0x46, 0x7F, 0xFF, 0x0C, 0x10] = 0x1C ∧
  crc8 [0x51, 0x05, 0x4B, 0x46, 0x7F, 0xFF, 0x0C, 0x10] = 0x5F

/-- R24, R26: what `CK` and `NG` hold after the operations that write them, and that no operation reads them to decide
anything: with other values of the two flags every operation but the read of `STATUS` does the same. -/
def Obligations.CheckAndSignFlagsOnlyRecord : Prop :=
  (∀ s t : State, exec .chka s = .next t →
    (t.ck = true ↔ s.fd = true ∧ crc8 (s.rom.toList.take 7) = s.rom[7])) ∧
  (∀ s t : State, exec .chks s = .next t → (t.ck = true ↔ crc8 (s.buf.toList.take 8) = s.buf[8])) ∧
  (∀ (fam : Byte) (s t : State), exec (.decode fam) s = .next t →
    (t.ck = true ↔ (fam = s.params.familyA ∨ fam = s.params.familyB) ∧ crc8 (s.buf.toList.take 8) = s.buf[8]) ∧
    t.ng = (t.ck && (s.buf[1] ++ s.buf[0]).msb)) ∧
  (∀ (i : Instr) (s : State) (ck ng : Bool), i ≠ .rd 0x01 →
    ∃ t t', exec i s = .next t ∧ exec i { s with ck := ck, ng := ng } = .next t' ∧
      { t' with ck := t.ck, ng := t.ng } = t)

/-! ## The bus scanner (spec/41_scanner.md) -/

/-- R104, R38, `SRST`: its effect and frame (no bus activity), its word, its illegal neighbours, idempotent, and without
effect on the block's state after a power-on reset. -/
def Obligations.SrstClearsTheCursor : Prop :=
  (∀ s : State, exec .srst s =
    .next { s with phase := .idle, lastd := 0, fd := false, resp := answer 0 0x00 }) ∧
  decodeWord 0x5000 = .ok .srst ∧
  (∀ w : Word, w.toNat / 4096 = 5 → w ≠ 0x5000 → RefusesWord w) ∧
  (∀ s t : State, exec .srst s = .next t → exec .srst t = .next t) ∧
  exec .srst State.reset = .next { State.reset with resp := answer 0 0x00 }

/-- R108, R109, with the response of R105, the reset and the command of R106 and this ending of the pseudocode of R107: a
`NEXT` on a bus that answers every primitive, with any answers and no pair (1, 1), completes after all 64 positions: each
bit of the address is the agreed bit or the choice of the decision path, `LASTD` is the highest discrepancy where 0 was
taken, every direction is written to the bus after its pair, and nothing else changes. -/
def Obligations.NextCompletesOnAnyAnswers : Prop :=
  ∀ (s : State) (ignored : List Bool) (qs : List (Bool × Bool × Bool)) (rest : List BusAnswer),
    s.phase ≠ .exhausted → ignored.length = 8 → qs.length = 64 →
    (∀ q ∈ qs, ¬(q.1 = true ∧ q.2.1 = true)) →
    s.port.env = .oracle (passAnswers ignored qs ++ rest) →
    ∃ t, exec .next s = .next t ∧
      (∀ (k : Nat) (h : k - 1 < qs.length), 1 ≤ k →
        addrBit t.rom (k - 1) =
          if (qs[k - 1]).1 ≠ (qs[k - 1]).2.1 then (qs[k - 1]).1
          else if k < s.lastd.toNat then addrBit s.rom (k - 1)
          else if k = s.lastd.toNat then true
          else false) ∧
      (∀ (k : Nat) (h : k - 1 < qs.length), 1 ≤ k →
        (qs[k - 1]).1 = (qs[k - 1]).2.1 → addrBit t.rom (k - 1) = false → k ≤ t.lastd.toNat) ∧
      (t.lastd ≠ 0 → ∃ h : t.lastd.toNat - 1 < qs.length,
        (qs[t.lastd.toNat - 1]).1 = (qs[t.lastd.toNat - 1]).2.1 ∧ addrBit t.rom (t.lastd.toNat - 1) = false) ∧
      t = { s with
        rom := t.rom, lastd := t.lastd, fd := true
        phase := if t.lastd = 0 then .exhausted else .searching
        resp := answer 0 t.rom[0]
        port := {
          env := .oracle rest
          log := (passEvents (pathPositions s qs)).reverse ++ s.port.log } }

/-- R110: a `NEXT` is aborted when no presence is reported or when a position reads the pair (1, 1), at any position
from 1 to 64; the address under construction is dropped and no further primitive is performed. -/
def Obligations.NextAbortsWhenNoDeviceAnswers : Prop :=
  (∀ (s : State) (rest : List BusAnswer), s.phase ≠ .exhausted → s.port.env = .oracle (.bit false :: rest) →
    exec .next s = .next { s with
      phase := .exhausted, lastd := 0, fd := false, resp := answer 1 0x00
      port := { env := .oracle rest, log := .reset false :: s.port.log } }) ∧
  (∀ (s : State) (ignored : List Bool) (qs : List (Bool × Bool × Bool)) (rest : List BusAnswer),
    s.phase ≠ .exhausted → ignored.length = 8 → qs.length < 64 →
    (∀ q ∈ qs, ¬(q.1 = true ∧ q.2.1 = true)) →
    s.port.env = .oracle (passAnswers ignored qs ++ .bit true :: .bit true :: rest) →
    exec .next s = .next { s with
      phase := .exhausted, lastd := 0, fd := false, resp := answer 1 0x00
      port := {
        env := .oracle rest
        log := (passEvents (pathPositions s qs) ++ [BusEvent.readBit true, BusEvent.readBit true]).reverse ++ s.port.log } })

/-- R111: in EXHAUSTED a `NEXT` performs no bus primitive, writes `FD` and answers NOMORE; EXHAUSTED is sticky: only `SRST`
and the power-on reset leave it. -/
def Obligations.ExhaustedIsSticky : Prop :=
  (∀ s : State, s.phase = .exhausted → exec .next s = .next { s with fd := false, resp := answer 5 0x00 }) ∧
  (∀ (is : List Instr) (s : State), s.phase = .exhausted → .srst ∉ is →
    ∃ t, execAll (is ++ [.next]) s = .next t ∧ t.phase = .exhausted ∧ t.port = s.port ∧ t.rom = s.rom ∧
      t.fd = false ∧ t.resp = answer 5 0x00) ∧
  (∀ s t : State, s.phase = .exhausted → step s = .next t → t.phase ≠ .exhausted →
    (∃ rest, s.inputs = .command 0x5000 :: rest) ∨ ∃ rest, s.inputs = .powerOnReset :: rest)

/-- A `NEXT` whose bus never answers one of its primitives, at any point of the pass, writes no state of the block
and does not respond; no later command word is accepted; only the power-on reset ends the wait; on the reference bus
a `NEXT` always ends (70_reset_and_hazards.md section 3). That the wait is a state of the machine is the model's choice,
log 4. -/
def Obligations.NextWaitsForASilentBus : Prop :=
  (∀ (s : State) (ignored : List Bool) (qs : List (Bool × Bool × Bool)) (n : Nat) (rest : List BusAnswer),
    s.phase ≠ .exhausted → ignored.length = 8 → qs.length = 64 →
    (∀ q ∈ qs, ¬(q.1 = true ∧ q.2.1 = true)) → n < 201 →
    (s.port.env = .oracle ((passAnswers ignored qs).take n ++ .never :: rest) ∨
      s.port.env = .oracle ((passAnswers ignored qs).take n)) →
    ∃ (p : BusPort) (es : List BusEvent), exec .next s = .next { s with stalled := true, port := p } ∧
      p.log = es ++ s.port.log ∧ es.length = n) ∧
  (∀ (s : State) (w : Word) (rest : List HostInput),
    s.stalled = true → s.inputs = .command w :: rest → step s = .next s) ∧
  (∀ (s : State) (rest : List HostInput), s.stalled = true → s.inputs = .powerOnReset :: rest →
    ∃ t, step s = .next t ∧ t.stalled = false) ∧
  (∀ s t : State, s.stalled = true → step s = .next t → t.stalled = false →
    ∃ rest, s.inputs = .powerOnReset :: rest) ∧
  (∀ (s : State) (w : WB), s.stalled = false → s.port.env = .reference w →
    ∃ t, exec .next s = .next t ∧ t.stalled = false)

/-- R103: the scanner's state machine, row by row, for every bus environment. The event of a row is read off the bus
port: a pass completes when its 64 positions `qs` are resolved, none of them (1, 1); `last_zero` and the address are those
of `qs`. A `NEXT` that does not end has no row (R179). No other operation writes the cursor, `ROM` or `FD`. -/
def Obligations.ScannerStateTable : Prop :=
  (∀ s : State, exec .srst s =
    .next { s with phase := .idle, lastd := 0, fd := false, resp := answer 0 0x00 }) ∧
  (∀ s t : State, CursorInv s → s.stalled = false → exec .next s = .next t → t.stalled = false →
    ((s.phase ≠ .exhausted ∧
        (∃ qs : List (Bool × Bool × Bool), qs.length = 64 ∧ (∀ q ∈ qs, ¬(q.1 = true ∧ q.2.1 = true)) ∧
          t.port.log = (passEvents qs).reverse ++ s.port.log ∧
          (∀ (i : Nat) (h : i < qs.length), addrBit t.rom i = (qs[i]).2.2) ∧ t.lastd.toNat = lastZeroOf qs) ∧
        t = { s with
          phase := if t.lastd = 0 then .exhausted else .searching
          lastd := t.lastd, rom := t.rom, fd := true, resp := answer 0 t.rom[0], port := t.port }) ∨
     (s.phase ≠ .exhausted ∧
        (t.port.log = .reset false :: s.port.log ∨
          ∃ qs : List (Bool × Bool × Bool), qs.length < 64 ∧ (∀ q ∈ qs, ¬(q.1 = true ∧ q.2.1 = true)) ∧
            t.port.log = (passEvents qs ++ [BusEvent.readBit true, BusEvent.readBit true]).reverse ++ s.port.log) ∧
        t = { s with phase := .exhausted, lastd := 0, fd := false, resp := answer 1 0x00, port := t.port }) ∨
     (s.phase = .exhausted ∧
        t = { s with phase := .exhausted, lastd := 0, fd := false, resp := answer 5 0x00 }))) ∧
  (∀ (i : Instr) (s t : State), i ≠ .srst → i ≠ .next → exec i s = .next t →
    t.phase = s.phase ∧ t.lastd = s.lastd ∧ t.rom = s.rom ∧ t.fd = s.fd)

/-- The bus activity of a `NEXT` that ends, on every environment, primitive by primitive and counted: 0 in EXHAUSTED, 1
without presence, 3k + 8 for an abort at position k, 201 for a completed pass; no other operation performs any
(41_scanner.md section 4, the spec's own inference). -/
def Obligations.NextBusActivity : Prop :=
  (∀ s t : State, s.stalled = false → exec .next s = .next t → t.stalled = false →
    ∃ es : List BusEvent, t.port.log = es.reverse ++ s.port.log ∧
      ((s.phase = .exhausted ∧ es = [] ∧ t.resp = answer 5 0x00) ∨
       (s.phase ≠ .exhausted ∧ es = [.reset false] ∧ t.resp = answer 1 0x00) ∨
       (s.phase ≠ .exhausted ∧ t.resp = answer 1 0x00 ∧ ∃ (k : Nat) (qs : List (Bool × Bool × Bool)),
          1 ≤ k ∧ k ≤ 64 ∧ qs.length = k - 1 ∧ es = passEvents qs ++ [.readBit true, .readBit true] ∧
          es.length = 3 * k + 8) ∨
       (s.phase ≠ .exhausted ∧ t.resp = answer 0 t.rom[0] ∧ ∃ qs : List (Bool × Bool × Bool),
          qs.length = 64 ∧ es = passEvents qs ∧ es.length = 201))) ∧
  (∀ (i : Instr) (s t : State), i ≠ .next → exec i s = .next t → t.port = s.port)

/-- On the reference bus a `NEXT` always ends, and the devices present stay the same (70_reset_and_hazards.md section 3:
"under the reference bus of `20_memory.md` rule R53 it is total"). -/
def Obligations.NextEndsOnReferenceBus : Prop :=
  ∀ (s : State) (w : WB), s.stalled = false → s.port.env = .reference w →
    ∃ t w', exec .next s = .next t ∧ t.stalled = false ∧ t.port.env = .reference w' ∧ w'.devices = w.devices

/-- Enumeration (41_scanner.md section 4, the spec's own inference): on `WB(D)`, from IDLE, the first n operations
`NEXT` find the n devices in strictly ascending order of the search key, the n-th leaves EXHAUSTED, and every later one
answers NOMORE; with no device the first answers BUSEMPTY. -/
def Obligations.NextEnumeratesDevicesAscending : Prop :=
  ∀ (s : State) (w : WB) (sorted : List Address),
    s.phase = .idle → s.lastd = 0 → s.port.env = .reference w → w.devices.Nodup →
    AscendingByKey sorted w.devices →
    (∀ (n : Nat) (h : n < sorted.length), ∃ t, execAll (List.replicate (n + 1) .next) s = .next t ∧
      t.rom = sorted[n] ∧ t.fd = true ∧ t.resp = answer 0 (sorted[n])[0] ∧
      t.phase = if n + 1 < sorted.length then .searching else .exhausted) ∧
    (∀ m : Nat, sorted.length < m → 1 < m → ∃ t, execAll (List.replicate m .next) s = .next t ∧
      t.resp = answer 5 0x00 ∧ t.fd = false ∧ t.phase = .exhausted) ∧
    (sorted = [] → ∃ t, exec .next s = .next t ∧ t.resp = answer 1 0x00 ∧ t.fd = false ∧ t.rom = s.rom)

/-- The worked trace with three devices (41_scanner.md section 4, the spec's own inference), from the reset state. -/
def Obligations.ThreeDeviceTrace : Prop :=
  let d1 : Address := #v[0x28, 0x01, 0, 0, 0, 0, 0, 0x29]
  let d2 : Address := #v[0x28, 0x02, 0, 0, 0, 0, 0, 0x70]
  let d3 : Address := #v[0x10, 0x01, 0, 0, 0, 0, 0, 0xCC]
  let start : State := { State.reset with port := { env := .reference (WB.initial [d1, d2, d3]), log := [] } }
  searchKey d1 = 0x1480000000000094 ∧ searchKey d2 = 0x144000000000000E ∧ searchKey d3 = 0x0880000000000033 ∧
  ∃ t1 t2 t3 t4, exec .next start = .next t1 ∧ exec .next t1 = .next t2 ∧ exec .next t2 = .next t3 ∧
    exec .next t3 = .next t4 ∧
    (t1.rom = d3 ∧ t1.lastd = 4 ∧ t1.phase = .searching ∧ t1.fd = true ∧ t1.resp = some 0x0010 ∧
      t1.port.log.length = 201) ∧
    (t2.rom = d2 ∧ t2.lastd = 9 ∧ t2.phase = .searching ∧ t2.fd = true ∧ t2.resp = some 0x0028 ∧
      t2.port.log.length = 402) ∧
    (t3.rom = d1 ∧ t3.lastd = 0 ∧ t3.phase = .exhausted ∧ t3.fd = true ∧ t3.resp = some 0x0028 ∧
      t3.port.log.length = 603) ∧
    (t4.rom = d1 ∧ t4.lastd = 0 ∧ t4.phase = .exhausted ∧ t4.fd = false ∧ t4.resp = some 0x0500 ∧
      t4.port.log.length = 603)

/-- A bus held low is taken for a device (70_reset_and_hazards.md section 3, the spec's own inference): every pair is
(0, 0), the pass takes 0 everywhere and completes with the all-zero address and `LASTD` = 64, and `CHKA` passes it. -/
def Obligations.BusHeldLowLooksLikeADevice : Prop :=
  ∀ (s : State) (ignored ignored' : List Bool) (rest : List BusAnswer),
    s.phase = .idle → s.lastd = 0 → ignored.length = 8 → ignored'.length = 64 →
    s.port.env = .oracle (passAnswers ignored (ignored'.map fun b => (false, false, b)) ++ rest) →
    ∃ t, execAll [.next, .chka] s = .next t ∧
      t.rom = #v[0, 0, 0, 0, 0, 0, 0, 0] ∧ t.lastd = 64 ∧ t.phase = .searching ∧ t.fd = true ∧ t.ck = true ∧
      t.resp = answer 0 0x00

/-- The search key (41_scanner.md section 4): the sum over the address bits, equally the bytes with their bits reversed
read as a big-endian number; different addresses have different keys. -/
def Obligations.SearchKeyOrdersAddresses : Prop :=
  (∀ a : Address, searchKey a = ∑ i ∈ Finset.range 64, if addrBit a i then 2 ^ (63 - i) else 0) ∧
  (∀ a : Address, searchKey a = ∑ j : Fin 8, a[j].reverse.toNat * 256 ^ (7 - j.val)) ∧
  (∀ a b : Address, searchKey a = searchKey b → a = b)

/-- What the two bits read at one position mean on the reference bus (20_memory.md section 5). -/
def Obligations.ReferenceBusPairs : Prop :=
  ∀ (devices taking : List Address) (i : Nat), i < 64 →
    let first := wbReadBit { devices := devices, mode := .search taking i .id }
    let second := wbReadBit first.2
    ((first.1, second.1) = (true, true) ↔ taking = []) ∧
    ((first.1, second.1) = (false, true) ↔ taking ≠ [] ∧ ∀ a ∈ taking, addrBit a i = false) ∧
    ((first.1, second.1) = (true, false) ↔ taking ≠ [] ∧ ∀ a ∈ taking, addrBit a i = true) ∧
    ((first.1, second.1) = (false, false) ↔
      (∃ a ∈ taking, addrBit a i = false) ∧ ∃ a ∈ taking, addrBit a i = true)

/-- R25: `FD` is 1 exactly when the most recent scanner operation was a `NEXT` that returned an address; `CHKA` without
it faults with NODATA. -/
def Obligations.FoundFlagMeansAnAddressWasReturned : Prop :=
  (∀ s t : State, s.stalled = false → exec .next s = .next t → t.stalled = false →
    (t.fd = true ↔ t.resp = answer 0 t.rom[0]) ∧
    (t.fd = false ↔ t.resp = answer 1 0x00 ∨ t.resp = answer 5 0x00)) ∧
  (∀ s t : State, exec .srst s = .next t → t.fd = false) ∧
  (∀ (i : Instr) (s t : State), i ≠ .next → i ≠ .srst → exec i s = .next t → t.fd = s.fd) ∧
  (∀ s : State, s.fd = false → ∃ t, exec .chka s = .next t ∧ t.resp = answer 6 0x00)

/-! ## The temperature decoder (spec/42_decoder.md) -/

/-- R121 to R124: the raw value is little-endian two's complement, the magnitude its absolute value (0x8000 included),
`scaled` = 6 mag + mag div 4, and `WHOLE` and `FRAC` its quotient and remainder by 100, with their ranges. -/
def Obligations.DecodeArithmetic : Prop :=
  ∀ (s : State) (fam : Byte), fam = s.params.familyA ∨ fam = s.params.familyB →
    crc8 (s.buf.toList.take 8) = s.buf[8] →
    ∃ t, exec (.decode fam) s = .next t ∧
      ∀ (value : Int) (mag scaled : Nat),
        value = (if 256 * s.buf[1].toNat + s.buf[0].toNat < 32768
          then (256 * s.buf[1].toNat + s.buf[0].toNat : Int)
          else (256 * s.buf[1].toNat + s.buf[0].toNat : Int) - 65536) →
        mag = value.natAbs → scaled = mag * 6 + mag / 4 →
        (t.ng = true ↔ value < 0) ∧ mag ≤ 32768 ∧ scaled ≤ 204800 ∧
        t.whole.toNat = scaled / 100 ∧ t.frac.toNat = scaled % 100 ∧
        t.whole.toNat ≤ 2048 ∧ t.frac.toNat ≤ 99 ∧
        (t.whole.toNat = 2048 → mag = 32768 ∧ t.frac.toNat = 0) ∧ (t.ng = true → mag ≠ 0)

/-- R126, R127: the string is the decimal text of the reading, a sign only when negative, two fraction digits; its
characters stand in `TSTR` from index 0, `TLEN` is its length, 4 to 8, and the bytes after it are 0x00. -/
def Obligations.DecodeStringIsDecimalText : Prop :=
  (∀ n : Nat, (dec n).map (fun c => Char.ofNat c.toNat) = (toString n).toList) ∧
  (∀ (s : State) (fam : Byte), fam = s.params.familyA ∨ fam = s.params.familyB →
    crc8 (s.buf.toList.take 8) = s.buf[8] →
    ∃ t, exec (.decode fam) s = .next t ∧
      ∃ text : String,
        text = (if t.ng then "-" else "") ++ toString t.whole.toNat ++ "." ++
          (if t.frac.toNat < 10 then "0" else "") ++ toString t.frac.toNat ∧
        t.tlen.toNat = text.length ∧ 4 ≤ text.length ∧ text.length ≤ 8 ∧
        t.tstr.toList.map (fun c => Char.ofNat c.toNat) =
          text.toList ++ List.replicate (8 - text.length) (Char.ofNat 0))

/-- R130, R131, `DECODE fam` (R129): the family test first, then the checksum, then the conversion; a fault clears `CK`
and all the results; nothing else is written; repeating it changes nothing; its words and its illegal neighbours. -/
def Obligations.DecodeChecksThenConverts : Prop :=
  (∀ (s : State) (fam : Byte), fam ≠ s.params.familyA → fam ≠ s.params.familyB →
    exec (.decode fam) s = .next { s with
      ck := false, ng := false, whole := 0, frac := 0, tlen := 0, tstr := #v[0, 0, 0, 0, 0, 0, 0, 0],
      resp := answer 3 fam }) ∧
  (∀ (s : State) (fam : Byte), fam = s.params.familyA ∨ fam = s.params.familyB →
    crc8 (s.buf.toList.take 8) ≠ s.buf[8] →
    exec (.decode fam) s = .next { s with
      ck := false, ng := false, whole := 0, frac := 0, tlen := 0, tstr := #v[0, 0, 0, 0, 0, 0, 0, 0],
      resp := answer 4 (crc8 (s.buf.toList.take 8)) }) ∧
  (∀ (s : State) (fam : Byte), fam = s.params.familyA ∨ fam = s.params.familyB →
    crc8 (s.buf.toList.take 8) = s.buf[8] →
    ∃ t, exec (.decode fam) s = .next t ∧
      t.ng = (readingOf (s.buf[1] ++ s.buf[0])).neg ∧
      t.whole.toNat = (readingOf (s.buf[1] ++ s.buf[0])).whole ∧
      t.frac.toNat = (readingOf (s.buf[1] ++ s.buf[0])).frac ∧
      t.tlen.toNat = (readingOf (s.buf[1] ++ s.buf[0])).text.length ∧
      t.tstr.toList = (readingOf (s.buf[1] ++ s.buf[0])).text ++ List.replicate (8 - t.tlen.toNat) 0x00 ∧
      t = { s with
        ck := true, ng := t.ng, whole := t.whole, frac := t.frac, tlen := t.tlen, tstr := t.tstr,
        resp := answer 0 (t.tlen.setWidth 8) }) ∧
  (∀ (s t : State) (fam : Byte), exec (.decode fam) s = .next t → exec (.decode fam) t = .next t) ∧
  (∀ v : Byte, decodeWord (BitVec.ofNat 16 (0x7000 + v.toNat)) = .ok (.decode v)) ∧
  (∀ w : Word, w.toNat / 4096 = 7 → w.toNat / 256 % 16 ≠ 0 → RefusesWord w)

/-- The laws of the decode (42_decoder.md section 4 (b) to (e), the spec's own inference): symmetry, monotonicity, no
negative zero, and sixteen counts to a degree. -/
def Obligations.DecodeLaws : Prop :=
  (∀ m : Nat, 1 ≤ m → m ≤ 32767 →
    (readingOf (BitVec.ofNat 16 (65536 - m))).whole = (readingOf (BitVec.ofNat 16 m)).whole ∧
    (readingOf (BitVec.ofNat 16 (65536 - m))).frac = (readingOf (BitVec.ofNat 16 m)).frac ∧
    (readingOf (BitVec.ofNat 16 (65536 - m))).text = 0x2D :: (readingOf (BitVec.ofNat 16 m)).text) ∧
  (∀ m : Nat, scaledTemp (m + 1) = scaledTemp m + if (m + 1) % 4 = 0 then 7 else 6) ∧
  (∀ raw : BitVec 16, (readingOf raw).neg = true → 6 ≤ 100 * (readingOf raw).whole + (readingOf raw).frac) ∧
  (∀ raw : BitVec 16, (readingOf raw).whole = magTemp raw / 16 ∧
    [0, 6, 12, 18, 25, 31, 37, 43, 50, 56, 62, 68, 75, 81, 87, 93][magTemp raw % 16]? = some (readingOf raw).frac)

/-- The result depends on the two temperature bytes only: two states that agree on them, and whose checks pass, decode
alike under any recognised family codes, whatever else they hold (42_decoder.md section 4 (f), the spec's own inference). -/
def Obligations.DecodeDependsOnTheTemperatureBytesOnly : Prop :=
  ∀ (s₁ s₂ t₁ t₂ : State) (fam₁ fam₂ : Byte),
    fam₁ = s₁.params.familyA ∨ fam₁ = s₁.params.familyB → fam₂ = s₂.params.familyA ∨ fam₂ = s₂.params.familyB →
    crc8 (s₁.buf.toList.take 8) = s₁.buf[8] → crc8 (s₂.buf.toList.take 8) = s₂.buf[8] →
    s₁.buf[0] = s₂.buf[0] → s₁.buf[1] = s₂.buf[1] →
    exec (.decode fam₁) s₁ = .next t₁ → exec (.decode fam₂) s₂ = .next t₂ →
    t₁.ng = t₂.ng ∧ t₁.whole = t₂.whole ∧ t₁.frac = t₂.frac ∧ t₁.tlen = t₂.tlen ∧ t₁.tstr = t₂.tstr ∧ t₁.resp = t₂.resp

/-- The nine worked examples (42_decoder.md section 4). -/
def Obligations.DecodeWorkedExamples : Prop :=
  readingOf 0x0550 = ⟨false, 85, 0, [0x38, 0x35, 0x2E, 0x30, 0x30]⟩ ∧
  readingOf 0xFFFE = ⟨true, 0, 12, [0x2D, 0x30, 0x2E, 0x31, 0x32]⟩ ∧
  readingOf 0xFEFF = ⟨true, 16, 6, [0x2D, 0x31, 0x36, 0x2E, 0x30, 0x36]⟩ ∧
  readingOf 0x0171 = ⟨false, 23, 6, [0x32, 0x33, 0x2E, 0x30, 0x36]⟩ ∧
  readingOf 0xFFA8 = ⟨true, 5, 50, [0x2D, 0x35, 0x2E, 0x35, 0x30]⟩ ∧
  readingOf 0x0000 = ⟨false, 0, 0, [0x30, 0x2E, 0x30, 0x30]⟩ ∧
  readingOf 0xFFFF = ⟨true, 0, 6, [0x2D, 0x30, 0x2E, 0x30, 0x36]⟩ ∧
  readingOf 0x7FFF = ⟨false, 2047, 93, [0x32, 0x30, 0x34, 0x37, 0x2E, 0x39, 0x33]⟩ ∧
  readingOf 0x8000 = ⟨true, 2048, 0, [0x2D, 0x32, 0x30, 0x34, 0x38, 0x2E, 0x30, 0x30]⟩

/-! ## Host access (spec/43_access.md, 20_memory.md, 10_state.md) -/

/-- R140, `NOP`: its effect, its word, its illegal neighbours. -/
def Obligations.NopOnlyResponds : Prop :=
  (∀ s : State, exec .nop s = .next { s with resp := answer 0 0x00 }) ∧
  decodeWord 0x0000 = .ok .nop ∧
  (∀ w : Word, w.toNat / 4096 = 0 → w ≠ 0x0000 → RefusesWord w)

/-- R141, `WRB idx, imm8`: its effect and frame for every index 0 to 8, its words, the refusal of the indexes 9 to 15, and
the register space after it: the byte at `0x20 + idx` reads as written, every other address reads as before. -/
def Obligations.WrbStoresOneByte : Prop :=
  (∀ (s : State) (idx : BitVec 4) (v : Byte) (h : idx.toNat < 9),
    exec (.wrb idx v) s = .next { s with buf := s.buf.set idx.toNat v h, resp := answer 0 v }) ∧
  (∀ (s : State) (idx : BitVec 4) (v : Byte), 9 ≤ idx.toNat →
    exec (.wrb idx v) s = .next { s with resp := answer 7 0x00 }) ∧
  (∀ (idx : BitVec 4) (v : Byte), idx.toNat ≤ 8 →
    decodeWord (BitVec.ofNat 16 (0x8000 + 256 * idx.toNat + v.toNat)) = .ok (.wrb idx v)) ∧
  (∀ w : Word, 0x8900 ≤ w.toNat → w.toNat ≤ 0x8FFF → RefusesWord w) ∧
  (∀ (s t : State) (idx : BitVec 4) (v : Byte), idx.toNat ≤ 8 → exec (.wrb idx v) s = .next t →
    memRead t (bufAddr idx) = some v ∧ (∀ a, a ≠ bufAddr idx → memRead t a = memRead s a) ∧
    exec (.wrb idx v) t = .next t)

/-- R142, `RD addr`: the byte at a mapped address is answered and nothing changes; an unmapped address answers ILLEGAL;
its words, and the words that are refused. -/
def Obligations.RdAnswersTheByte : Prop :=
  (∀ (s : State) (a : Byte), MappedAddress a.toNat → ∃ v, memRead s a = some v ∧
    exec (.rd a) s = .next { s with resp := answer 0 v }) ∧
  (∀ (s : State) (a : Byte), ¬ MappedAddress a.toNat → memRead s a = none ∧
    exec (.rd a) s = .next { s with resp := answer 7 0x00 }) ∧
  (∀ a : Byte, MappedAddress a.toNat → decodeWord (BitVec.ofNat 16 (0x9000 + a.toNat)) = .ok (.rd a)) ∧
  (∀ w : Word, w.toNat / 4096 = 9 → (w.toNat / 256 % 16 ≠ 0 ∨ ¬ MappedAddress (w.toNat % 256)) → RefusesWord w)

/-- R41: the register map: the value at each mapped address, and no value at any other; an `RD` answers the value, or
faults with ILLEGAL, and changes nothing. -/
def Obligations.RegisterMap : Prop :=
  ∀ s : State,
    memRead s 0x00 = some s.crc ∧
    memRead s 0x01 = some (BitVec.ofNat 8 (s.ck.toNat + 2 * s.fd.toNat + 4 * s.ng.toNat)) ∧
    memRead s 0x02 = some (match s.phase with | .idle => 0 | .searching => 1 | .exhausted => 2) ∧
    memRead s 0x03 = some (s.lastd.setWidth 8) ∧
    memRead s 0x04 = some (BitVec.ofNat 8 (s.whole.toNat % 256)) ∧
    memRead s 0x05 = some (BitVec.ofNat 8 (s.whole.toNat / 256)) ∧
    memRead s 0x06 = some (s.frac.setWidth 8) ∧
    memRead s 0x07 = some (s.tlen.setWidth 8) ∧
    (∀ i : Fin 8, memRead s (BitVec.ofNat 8 (0x10 + i.val)) = some s.rom[i]) ∧
    (∀ i : Fin 9, memRead s (BitVec.ofNat 8 (0x20 + i.val)) = some s.buf[i]) ∧
    (∀ i : Fin 8, memRead s (BitVec.ofNat 8 (0x30 + i.val)) = some s.tstr[i]) ∧
    (∀ a : Byte, ¬ MappedAddress a.toNat → memRead s a = none) ∧
    (∀ (a v : Byte), memRead s a = some v → exec (.rd a) s = .next { s with resp := answer 0 v }) ∧
    (∀ a : Byte, memRead s a = none → exec (.rd a) s = .next { s with resp := answer 7 0x00 })

/-- `LDSPAD` fills the buffer and changes nothing else, and the nine reads give its bytes back (30_encoding.md section 5,
20_memory.md section 3). -/
def Obligations.LdspadLoadsTheBuffer : Prop :=
  ∀ (s : State) (b : Scratchpad),
    execAll (pseudoLdSpad b) s = .next { s with buf := b, resp := answer 0 b[8] } ∧
    ∀ i : Fin 9, ∃ t, execAll (pseudoLdSpad b ++ [.rd (BitVec.ofNat 8 (0x20 + i.val))]) s = .next t ∧
      t.resp = answer 0 b[i] ∧ t.buf = b

/-- R32, R23: `WHOLE` reads as two bytes, the low byte at the lower address, `FRAC` and `TLEN` with zeros above, and
`STATUS` packs the three flags; none of these can be written by a `WRB`. -/
def Obligations.WideAndPackedRegistersRead : Prop :=
  (∀ s : State, ∃ lo hi fr tl st,
    memRead s 0x04 = some lo ∧ memRead s 0x05 = some hi ∧ memRead s 0x06 = some fr ∧ memRead s 0x07 = some tl ∧
    memRead s 0x01 = some st ∧
    s.whole.toNat = 256 * hi.toNat + lo.toNat ∧ hi.toNat < 16 ∧
    fr.toNat = s.frac.toNat ∧ fr.toNat < 128 ∧ tl.toNat = s.tlen.toNat ∧ tl.toNat < 16 ∧
    st[0] = s.ck ∧ st[1] = s.fd ∧ st[2] = s.ng ∧ st.toNat < 8) ∧
  (∀ (s t : State) (idx : BitVec 4) (v a : Byte), a.toNat ≤ 0x07 → exec (.wrb idx v) s = .next t →
    memRead t a = memRead s a)

/-! ## Faults (spec/60_exceptions.md) -/

/-- R152: each fault leaves exactly the state writes its row lists, whatever the operation, the state and the bus. -/
def Obligations.FaultsWriteExactlyTheirRow : Prop :=
  ∀ (i : Instr) (s t : State) (data : Byte), s.stalled = false → exec i s = .next t → t.stalled = false →
    (t.resp = answer 7 data → t = { s with resp := answer 7 0x00 }) ∧
    (t.resp = answer 1 data → i = .next ∧
      t = { s with phase := .exhausted, lastd := 0, fd := false, resp := answer 1 0x00, port := t.port }) ∧
    (t.resp = answer 5 data → i = .next ∧ t = { s with fd := false, resp := answer 5 0x00 }) ∧
    (t.resp = answer 6 data → i = .chka ∧ t = { s with ck := false, resp := answer 6 0x00 }) ∧
    (t.resp = answer 2 data → i = .chka ∧
      t = { s with ck := false, resp := answer 2 (crc8 (s.rom.toList.take 7)) }) ∧
    (t.resp = answer 4 data →
      (i = .chks ∧ t = { s with ck := false, resp := answer 4 (crc8 (s.buf.toList.take 8)) }) ∨
      ∃ fam, i = .decode fam ∧ t = { s with
        ck := false, ng := false, whole := 0, frac := 0, tlen := 0, tstr := #v[0, 0, 0, 0, 0, 0, 0, 0],
        resp := answer 4 (crc8 (s.buf.toList.take 8)) }) ∧
    (t.resp = answer 3 data → ∃ fam, i = .decode fam ∧ t = { s with
      ck := false, ng := false, whole := 0, frac := 0, tlen := 0, tstr := #v[0, 0, 0, 0, 0, 0, 0, 0],
      resp := answer 3 fam })

/-- R153: the priority where two conditions hold: ILLEGAL before everything, NODATA before ADDRCRC, UNSUPPORTED before
SPADCRC, NOMORE before BUSEMPTY. -/
def Obligations.FaultPriority : Prop :=
  (∀ w e, decodeWord w = .error e → RefusesWord w) ∧
  (∀ s : State, s.fd = false → crc8 (s.rom.toList.take 7) ≠ s.rom[7] →
    ∃ t, exec .chka s = .next t ∧ t.resp = answer 6 0x00) ∧
  (∀ (s : State) (fam : Byte), fam ≠ s.params.familyA → fam ≠ s.params.familyB →
    crc8 (s.buf.toList.take 8) ≠ s.buf[8] → ∃ t, exec (.decode fam) s = .next t ∧ t.resp = answer 3 fam) ∧
  (∀ (s : State) (w : WB), s.phase = .exhausted → s.port.env = .reference w → w.devices = [] →
    ∃ t, exec .next s = .next t ∧ t.resp = answer 5 0x00 ∧ t.port = s.port)

/-- What each operation answers as the first one after reset, for every bus and every pair of family codes
(70_reset_and_hazards.md section 2, the spec's own inference). The bus and the codes at reset are the model's choice, logs 3
and 9; the statement is about all of them. -/
def Obligations.FirstOperationsAfterReset : Prop :=
  ∀ (port : BusPort) (params : Params) (s : State), s = { State.reset with port := port, params := params } →
    (∀ i ∈ [Instr.nop, .crcclr, .srst], exec i s = .next { s with resp := answer 0 0x00 }) ∧
    (∀ v, exec (.crcupd v) s = .next { s with crc := crc8 [v], resp := answer 0 (crc8 [v]) }) ∧
    exec .chka s = .next { s with resp := answer 6 0x00 } ∧
    exec .chks s = .next { s with ck := true, resp := answer 0 0x00 } ∧
    (∀ fam, fam = params.familyA ∨ fam = params.familyB → exec (.decode fam) s = .next { s with
      ck := true, tlen := 4, tstr := #v[0x30, 0x2E, 0x30, 0x30, 0, 0, 0, 0], resp := answer 0 0x04 }) ∧
    (∀ fam, fam ≠ params.familyA → fam ≠ params.familyB →
      exec (.decode fam) s = .next { s with resp := answer 3 fam }) ∧
    (∃ t, exec .next s = .next t ∧ (t.stalled = true ∨ port.log.length < t.port.log.length)) ∧
    (∀ a : Byte, MappedAddress a.toNat → exec (.rd a) s = .next { s with resp := answer 0 0x00 })
end

