-- ==== Sys2Proof/Laws/Bus.lean ====
section
/-!
SUPPORT. What one bus primitive can do, on any environment and on an oracle, and the bits of an address
(spec/20_memory.md R50 to R52, spec/41_scanner.md R101).
-/

namespace Sys2Proof.Machine

/-- A primitive records its event and returns, or it never returns and records nothing. -/
theorem busPerform_cases (p : BusPort) (onWB : WB → Bool × WB) (event : Bool → BusEvent) :
    (∃ b env, busPerform p onWB event = .returned b ⟨env, event b :: p.log⟩) ∨
    (∃ env, busPerform p onWB event = .hung ⟨env, p.log⟩) := by
  unfold busPerform
  rcases envAnswer p.env onWB with ⟨_ | b, env⟩
  · exact .inr ⟨env, rfl⟩
  · exact .inl ⟨b, env, rfl⟩

theorem busReset_cases (p : BusPort) :
    (∃ b env, busReset p = .returned b ⟨env, .reset b :: p.log⟩) ∨ (∃ env, busReset p = .hung ⟨env, p.log⟩) :=
  busPerform_cases p wbReset .reset

theorem busReadBit_cases (p : BusPort) :
    (∃ b env, busReadBit p = .returned b ⟨env, .readBit b :: p.log⟩) ∨
    (∃ env, busReadBit p = .hung ⟨env, p.log⟩) :=
  busPerform_cases p wbReadBit .readBit

theorem busWriteBit_cases (p : BusPort) (v : Bool) :
    (∃ b env, busWriteBit p v = .returned b ⟨env, .writeBit v :: p.log⟩) ∨
    (∃ env, busWriteBit p v = .hung ⟨env, p.log⟩) :=
  busPerform_cases p _ _

/-- The bits of a byte write that returns are on the log, least significant first (R51). -/
theorem busWriteBits_log (v : Byte) (n j : Nat) (p : BusPort) {b : Bool} {q : BusPort}
    (h : busWriteBits v n j p = .returned b q) :
    q.log = ((List.range' j n).map fun i => BusEvent.writeBit (v.getLsbD i)).reverse ++ p.log := by
  induction n generalizing j p with
  | zero =>
    simp only [busWriteBits, BusResult.returned.injEq] at h
    simp [h.2]
  | succ n ih =>
    simp only [busWriteBits] at h
    rcases busWriteBit_cases p (v.getLsbD j) with ⟨b', env, e⟩ | ⟨env, e⟩ <;> rw [e] at h
    · rw [ih _ _ h]
      simp [List.range'_succ]
    · cases h

/-- R73: the eight writes of the search command. -/
theorem searchCommand_events :
    (List.range' 0 8).map (fun i => BusEvent.writeBit (searchCommand.getLsbD i)) = searchCommandEvents := by
  decide

theorem busReset_oracle (b : Bool) (rest : List BusAnswer) (log : List BusEvent) :
    busReset ⟨.oracle (.bit b :: rest), log⟩ = .returned b ⟨.oracle rest, .reset b :: log⟩ := rfl

theorem busReadBit_oracle (b : Bool) (rest : List BusAnswer) (log : List BusEvent) :
    busReadBit ⟨.oracle (.bit b :: rest), log⟩ = .returned b ⟨.oracle rest, .readBit b :: log⟩ := rfl

theorem busWriteBit_oracle (b v : Bool) (rest : List BusAnswer) (log : List BusEvent) :
    busWriteBit ⟨.oracle (.bit b :: rest), log⟩ v = .returned b ⟨.oracle rest, .writeBit v :: log⟩ := rfl

/-- A byte write on an oracle that answers every write (R51). -/
theorem busWriteBits_oracle (v : Byte) (ignored : List Bool) (j : Nat) (rest : List BusAnswer) (log : List BusEvent) :
    ∃ b, busWriteBits v ignored.length j ⟨.oracle (ignored.map .bit ++ rest), log⟩ =
      .returned b ⟨.oracle rest,
        ((List.range' j ignored.length).map fun i => BusEvent.writeBit (v.getLsbD i)).reverse ++ log⟩ := by
  induction ignored generalizing j log with
  | nil => exact ⟨false, rfl⟩
  | cons a ignored ih =>
    obtain ⟨c, hc⟩ := ih (j + 1) (.writeBit (v.getLsbD j) :: log)
    exact ⟨c, by simp [busWriteBits, busWriteBit_oracle, List.range'_succ, hc]⟩

theorem setByteBit_getLsbD (b : Byte) (j : Nat) (v : Bool) (k : Nat) (hj : j < 8) (hk : k < 8) :
    (setByteBit b j v).getLsbD k = if k = j then v else b.getLsbD k := by
  have h1 : ∀ j < 8, ∀ k < 8, (1#8 <<< j).getLsbD k = decide (k = j) := by decide
  unfold setByteBit
  cases v
  · simp only [Bool.false_eq_true, if_false, BitVec.getLsbD_and, BitVec.getLsbD_not, h1 j hj k hk]
    by_cases h : k = j <;> simp [h, hk, hj]
  · simp only [if_true, BitVec.getLsbD_or, h1 j hj k hk]
    by_cases h : k = j <;> simp [h]

/-- Setting one address bit sets it and leaves every other one alone. -/
theorem addrBit_setAddrBit (a : Address) (i j : Nat) (v : Bool) (hi : i < 64) :
    addrBit (setAddrBit a i v) j = if j = i then v else addrBit a j := by
  unfold addrBit setAddrBit
  rw [Vector.getElem?_setIfInBounds]
  by_cases h : i / 8 = j / 8
  · rw [if_pos h, if_pos (by omega), h, Option.getD_some, setByteBit_getLsbD _ _ _ _ (by omega) (by omega)]
    by_cases h2 : j = i
    · simp [h2]
    · rw [if_neg (by omega), if_neg h2]
  · rw [if_neg h, if_neg (by rintro rfl; exact h rfl)]

/-- An address is its 64 bits. -/
theorem address_ext {a b : Address} (h : ∀ j < 64, addrBit a j = addrBit b j) : a = b := by
  apply Vector.ext
  intro i hi
  apply BitVec.eq_of_getLsbD_eq
  intro k hk
  have hb := h (8 * i + k) (by omega)
  unfold addrBit at hb
  rw [show (8 * i + k) / 8 = i by omega, show (8 * i + k) % 8 = k by omega] at hb
  simpa [hi] using hb

end Sys2Proof.Machine
end

