-- ==== Sys2Proof/Laws/Crc.lean ====
section
/-!
SUPPORT. The algebra of the checksum's byte step (spec/40_crc.md R81, R82).
-/

namespace Sys2Proof.Machine

theorem crcFold_append (c : Byte) (s t : List Byte) : crcFold c (s ++ t) = crcFold (crcFold c s) t := by
  induction s generalizing c with
  | nil => rfl
  | cons b s ih => simp [crcFold, ih]

theorem crcShift_xor (a b : Byte) : crcShift (a ^^^ b) = crcShift a ^^^ crcShift b := by
  simp only [crcShift, BitVec.getLsbD_xor, crcTaps]
  cases a.getLsbD 0 <;> cases b.getLsbD 0 <;> simp [BitVec.ushiftRight_xor_distrib] <;> ext <;> simp <;> grind

theorem crcShifts_xor (n : Nat) (a b : Byte) : crcShifts n (a ^^^ b) = crcShifts n a ^^^ crcShifts n b := by
  induction n generalizing a b with
  | zero => rfl
  | succ n ih => simp [crcShifts, crcShift_xor, ih]

theorem crcShift_eq_zero (a : Byte) : crcShift a = 0 ↔ a = 0 := by
  revert a
  decide +kernel

theorem crcShifts_eq_zero (n : Nat) (a : Byte) : crcShifts n a = 0 ↔ a = 0 := by
  induction n generalizing a with
  | zero => rfl
  | succ n ih => rw [crcShifts, ih, crcShift_eq_zero]

theorem crc8Byte_eq_zero (c b : Byte) : crc8Byte c b = 0 ↔ c = b := by
  simp only [crc8Byte, crcShifts_eq_zero]
  exact BitVec.xor_eq_zero_iff

/-- The byte step is injective in the register. -/
theorem crc8Byte_left_inj {c d b : Byte} (h : crc8Byte c b = crc8Byte d b) : c = d := by
  have hx : crcShifts 8 ((c ^^^ b) ^^^ (d ^^^ b)) = 0 := by
    rw [crcShifts_xor]
    exact BitVec.xor_eq_zero_iff.2 h
  have hb := BitVec.xor_eq_zero_iff.1 ((crcShifts_eq_zero 8 _).1 hx)
  simpa [BitVec.xor_assoc] using congrArg (fun v : Byte => v ^^^ b) hb

end Sys2Proof.Machine
end

