-- ==== Sys2Proof/Laws/Decode.lean ====
section
/-!
SUPPORT. The fields of a command word as numbers, and what each format's decoder accepts (spec/30_encoding.md R60, R61, R66).
-/

namespace Sys2Proof

open Machine

theorem packWord_toNat (o a : BitVec 4) (d : Byte) :
    (packWord o a d).toNat = o.toNat * 4096 + a.toNat * 256 + d.toNat := by
  have := o.isLt
  have := a.isLt
  have := d.isLt
  unfold packWord
  rw [BitVec.toNat_append, BitVec.toNat_append, ← Nat.shiftLeft_add_eq_or_of_lt (by omega),
    ← Nat.shiftLeft_add_eq_or_of_lt (by omega)]
  simp only [Nat.shiftLeft_eq]
  omega

theorem opcField_toNat (w : Word) : (opcField w).toNat = w.toNat / 4096 := by
  have := w.isLt
  simp only [opcField, BitVec.extractLsb'_toNat, Nat.shiftRight_eq_div_pow]
  omega

theorem aField_toNat (w : Word) : (aField w).toNat = w.toNat / 256 % 16 := by
  simp [aField, BitVec.extractLsb'_toNat, Nat.shiftRight_eq_div_pow]

theorem dField_toNat (w : Word) : (dField w).toNat = w.toNat % 256 := by
  simp [dField, BitVec.extractLsb'_toNat, Nat.shiftRight_eq_div_pow]

@[simp] theorem opcField_packWord (o a : BitVec 4) (d : Byte) : opcField (packWord o a d) = o := by
  apply BitVec.eq_of_toNat_eq
  rw [opcField_toNat, packWord_toNat]
  omega

@[simp] theorem aField_packWord (o a : BitVec 4) (d : Byte) : aField (packWord o a d) = a := by
  apply BitVec.eq_of_toNat_eq
  rw [aField_toNat, packWord_toNat]
  omega

@[simp] theorem dField_packWord (o a : BitVec 4) (d : Byte) : dField (packWord o a d) = d := by
  apply BitVec.eq_of_toNat_eq
  rw [dField_toNat, packWord_toNat]
  omega

/-- A word is its three fields. -/
theorem packWord_fields (w : Word) : packWord (opcField w) (aField w) (dField w) = w := by
  have := w.isLt
  apply BitVec.eq_of_toNat_eq
  rw [packWord_toNat, opcField_toNat, aField_toNat, dField_toNat]
  omega

theorem decodeF0_ok {w : Word} {i j : Instr} :
    decodeF0 w i = .ok j ↔ aField w = 0 ∧ dField w = 0 ∧ j = i := by
  unfold decodeF0
  split <;> rename_i h
  · simp [h.1, h.2, eq_comm]
  · simp only [reduceCtorEq, false_iff]
    tauto

theorem decodeFI_ok {w : Word} {i : Byte → Instr} {j : Instr} :
    decodeFI w i = .ok j ↔ aField w = 0 ∧ j = i (dField w) := by
  unfold decodeFI
  split <;> rename_i h
  · simp [h, eq_comm]
  · simp only [reduceCtorEq, false_iff]
    tauto

theorem decodeRd_ok {w : Word} {j : Instr} :
    decodeRd w = .ok j ↔ aField w = 0 ∧ addrMapped (dField w) = true ∧ j = .rd (dField w) := by
  unfold decodeRd
  split <;> rename_i h
  · simp only [reduceCtorEq, false_iff]
    tauto
  · split <;> rename_i h2
    · have ha : aField w = 0 := not_not.1 h
      rw [Except.ok.injEq]
      exact ⟨fun e => ⟨ha, h2, e.symm⟩, fun e => e.2.2.symm⟩
    · simp only [reduceCtorEq, false_iff]
      tauto

theorem decodeWrb_ok {w : Word} {j : Instr} :
    decodeWrb w = .ok j ↔ idxLegal (aField w) = true ∧ j = .wrb (aField w) (dField w) := by
  unfold decodeWrb
  split <;> rename_i h
  · simp [h, eq_comm]
  · simp only [reduceCtorEq, false_iff]
    tauto

theorem idxLegal_iff (idx : BitVec 4) : idxLegal idx = true ↔ idx.toNat < 9 := by
  simp only [idxLegal, decide_eq_true_eq]
  omega

theorem addrMapped_iff (a : Byte) : addrMapped a = true ↔ MappedAddress a.toNat := by
  simp only [addrMapped, Bool.or_eq_true, Bool.and_eq_true, decide_eq_true_eq, MappedAddress]
  omega

end Sys2Proof
end

