-- ==== Sys2Proof/Laws/State.lean ====
section
/-!
SUPPORT. One lemma per field per named state write of Machine/Ops.lean, so that no proof unfolds a record update.
-/

namespace Sys2Proof.Machine

variable (s : State)

@[simp] theorem raiseFault_eq (c : OutcomeCode) (d : Byte) : raiseFault c d s = respond c d s := rfl
@[simp] theorem answerIllegal_eq : answerIllegal s = respond .illegal 0x00 s := rfl

@[simp] theorem respond_crc (c : OutcomeCode) (d : Byte) : (respond c d s).crc = s.crc := rfl
@[simp] theorem respond_ck (c : OutcomeCode) (d : Byte) : (respond c d s).ck = s.ck := rfl
@[simp] theorem respond_fd (c : OutcomeCode) (d : Byte) : (respond c d s).fd = s.fd := rfl
@[simp] theorem respond_ng (c : OutcomeCode) (d : Byte) : (respond c d s).ng = s.ng := rfl
@[simp] theorem respond_phase (c : OutcomeCode) (d : Byte) : (respond c d s).phase = s.phase := rfl
@[simp] theorem respond_lastd (c : OutcomeCode) (d : Byte) : (respond c d s).lastd = s.lastd := rfl
@[simp] theorem respond_rom (c : OutcomeCode) (d : Byte) : (respond c d s).rom = s.rom := rfl
@[simp] theorem respond_buf (c : OutcomeCode) (d : Byte) : (respond c d s).buf = s.buf := rfl
@[simp] theorem respond_whole (c : OutcomeCode) (d : Byte) : (respond c d s).whole = s.whole := rfl
@[simp] theorem respond_frac (c : OutcomeCode) (d : Byte) : (respond c d s).frac = s.frac := rfl
@[simp] theorem respond_tlen (c : OutcomeCode) (d : Byte) : (respond c d s).tlen = s.tlen := rfl
@[simp] theorem respond_tstr (c : OutcomeCode) (d : Byte) : (respond c d s).tstr = s.tstr := rfl
@[simp] theorem respond_resp (c : OutcomeCode) (d : Byte) : (respond c d s).resp = some (responseWord c d) := rfl
@[simp] theorem respond_stalled (c : OutcomeCode) (d : Byte) : (respond c d s).stalled = s.stalled := rfl
@[simp] theorem respond_port (c : OutcomeCode) (d : Byte) : (respond c d s).port = s.port := rfl
@[simp] theorem respond_inputs (c : OutcomeCode) (d : Byte) : (respond c d s).inputs = s.inputs := rfl
@[simp] theorem respond_params (c : OutcomeCode) (d : Byte) : (respond c d s).params = s.params := rfl

@[simp] theorem setCrc_crc (v : Byte) : (setCrc v s).crc = v := rfl
@[simp] theorem setCrc_ck (v : Byte) : (setCrc v s).ck = s.ck := rfl
@[simp] theorem setCrc_fd (v : Byte) : (setCrc v s).fd = s.fd := rfl
@[simp] theorem setCrc_ng (v : Byte) : (setCrc v s).ng = s.ng := rfl
@[simp] theorem setCrc_phase (v : Byte) : (setCrc v s).phase = s.phase := rfl
@[simp] theorem setCrc_lastd (v : Byte) : (setCrc v s).lastd = s.lastd := rfl
@[simp] theorem setCrc_rom (v : Byte) : (setCrc v s).rom = s.rom := rfl
@[simp] theorem setCrc_buf (v : Byte) : (setCrc v s).buf = s.buf := rfl
@[simp] theorem setCrc_whole (v : Byte) : (setCrc v s).whole = s.whole := rfl
@[simp] theorem setCrc_frac (v : Byte) : (setCrc v s).frac = s.frac := rfl
@[simp] theorem setCrc_tlen (v : Byte) : (setCrc v s).tlen = s.tlen := rfl
@[simp] theorem setCrc_tstr (v : Byte) : (setCrc v s).tstr = s.tstr := rfl
@[simp] theorem setCrc_resp (v : Byte) : (setCrc v s).resp = s.resp := rfl
@[simp] theorem setCrc_stalled (v : Byte) : (setCrc v s).stalled = s.stalled := rfl
@[simp] theorem setCrc_port (v : Byte) : (setCrc v s).port = s.port := rfl
@[simp] theorem setCrc_inputs (v : Byte) : (setCrc v s).inputs = s.inputs := rfl
@[simp] theorem setCrc_params (v : Byte) : (setCrc v s).params = s.params := rfl

@[simp] theorem setCk_crc (b : Bool) : (setCk b s).crc = s.crc := rfl
@[simp] theorem setCk_ck (b : Bool) : (setCk b s).ck = b := rfl
@[simp] theorem setCk_fd (b : Bool) : (setCk b s).fd = s.fd := rfl
@[simp] theorem setCk_ng (b : Bool) : (setCk b s).ng = s.ng := rfl
@[simp] theorem setCk_phase (b : Bool) : (setCk b s).phase = s.phase := rfl
@[simp] theorem setCk_lastd (b : Bool) : (setCk b s).lastd = s.lastd := rfl
@[simp] theorem setCk_rom (b : Bool) : (setCk b s).rom = s.rom := rfl
@[simp] theorem setCk_buf (b : Bool) : (setCk b s).buf = s.buf := rfl
@[simp] theorem setCk_whole (b : Bool) : (setCk b s).whole = s.whole := rfl
@[simp] theorem setCk_frac (b : Bool) : (setCk b s).frac = s.frac := rfl
@[simp] theorem setCk_tlen (b : Bool) : (setCk b s).tlen = s.tlen := rfl
@[simp] theorem setCk_tstr (b : Bool) : (setCk b s).tstr = s.tstr := rfl
@[simp] theorem setCk_resp (b : Bool) : (setCk b s).resp = s.resp := rfl
@[simp] theorem setCk_stalled (b : Bool) : (setCk b s).stalled = s.stalled := rfl
@[simp] theorem setCk_port (b : Bool) : (setCk b s).port = s.port := rfl
@[simp] theorem setCk_inputs (b : Bool) : (setCk b s).inputs = s.inputs := rfl
@[simp] theorem setCk_params (b : Bool) : (setCk b s).params = s.params := rfl

@[simp] theorem setFd_crc (b : Bool) : (setFd b s).crc = s.crc := rfl
@[simp] theorem setFd_ck (b : Bool) : (setFd b s).ck = s.ck := rfl
@[simp] theorem setFd_fd (b : Bool) : (setFd b s).fd = b := rfl
@[simp] theorem setFd_ng (b : Bool) : (setFd b s).ng = s.ng := rfl
@[simp] theorem setFd_phase (b : Bool) : (setFd b s).phase = s.phase := rfl
@[simp] theorem setFd_lastd (b : Bool) : (setFd b s).lastd = s.lastd := rfl
@[simp] theorem setFd_rom (b : Bool) : (setFd b s).rom = s.rom := rfl
@[simp] theorem setFd_buf (b : Bool) : (setFd b s).buf = s.buf := rfl
@[simp] theorem setFd_whole (b : Bool) : (setFd b s).whole = s.whole := rfl
@[simp] theorem setFd_frac (b : Bool) : (setFd b s).frac = s.frac := rfl
@[simp] theorem setFd_tlen (b : Bool) : (setFd b s).tlen = s.tlen := rfl
@[simp] theorem setFd_tstr (b : Bool) : (setFd b s).tstr = s.tstr := rfl
@[simp] theorem setFd_resp (b : Bool) : (setFd b s).resp = s.resp := rfl
@[simp] theorem setFd_stalled (b : Bool) : (setFd b s).stalled = s.stalled := rfl
@[simp] theorem setFd_port (b : Bool) : (setFd b s).port = s.port := rfl
@[simp] theorem setFd_inputs (b : Bool) : (setFd b s).inputs = s.inputs := rfl
@[simp] theorem setFd_params (b : Bool) : (setFd b s).params = s.params := rfl

@[simp] theorem setCursor_crc (p : Phase) (l : BitVec 7) (b : Bool) : (setCursor p l b s).crc = s.crc := rfl
@[simp] theorem setCursor_ck (p : Phase) (l : BitVec 7) (b : Bool) : (setCursor p l b s).ck = s.ck := rfl
@[simp] theorem setCursor_fd (p : Phase) (l : BitVec 7) (b : Bool) : (setCursor p l b s).fd = b := rfl
@[simp] theorem setCursor_ng (p : Phase) (l : BitVec 7) (b : Bool) : (setCursor p l b s).ng = s.ng := rfl
@[simp] theorem setCursor_phase (p : Phase) (l : BitVec 7) (b : Bool) : (setCursor p l b s).phase = p := rfl
@[simp] theorem setCursor_lastd (p : Phase) (l : BitVec 7) (b : Bool) : (setCursor p l b s).lastd = l := rfl
@[simp] theorem setCursor_rom (p : Phase) (l : BitVec 7) (b : Bool) : (setCursor p l b s).rom = s.rom := rfl
@[simp] theorem setCursor_buf (p : Phase) (l : BitVec 7) (b : Bool) : (setCursor p l b s).buf = s.buf := rfl
@[simp] theorem setCursor_whole (p : Phase) (l : BitVec 7) (b : Bool) : (setCursor p l b s).whole = s.whole := rfl
@[simp] theorem setCursor_frac (p : Phase) (l : BitVec 7) (b : Bool) : (setCursor p l b s).frac = s.frac := rfl
@[simp] theorem setCursor_tlen (p : Phase) (l : BitVec 7) (b : Bool) : (setCursor p l b s).tlen = s.tlen := rfl
@[simp] theorem setCursor_tstr (p : Phase) (l : BitVec 7) (b : Bool) : (setCursor p l b s).tstr = s.tstr := rfl
@[simp] theorem setCursor_resp (p : Phase) (l : BitVec 7) (b : Bool) : (setCursor p l b s).resp = s.resp := rfl
@[simp] theorem setCursor_stalled (p : Phase) (l : BitVec 7) (b : Bool) : (setCursor p l b s).stalled = s.stalled := rfl
@[simp] theorem setCursor_port (p : Phase) (l : BitVec 7) (b : Bool) : (setCursor p l b s).port = s.port := rfl
@[simp] theorem setCursor_inputs (p : Phase) (l : BitVec 7) (b : Bool) : (setCursor p l b s).inputs = s.inputs := rfl
@[simp] theorem setCursor_params (p : Phase) (l : BitVec 7) (b : Bool) : (setCursor p l b s).params = s.params := rfl

@[simp] theorem setRom_crc (a : Address) : (setRom a s).crc = s.crc := rfl
@[simp] theorem setRom_ck (a : Address) : (setRom a s).ck = s.ck := rfl
@[simp] theorem setRom_fd (a : Address) : (setRom a s).fd = s.fd := rfl
@[simp] theorem setRom_ng (a : Address) : (setRom a s).ng = s.ng := rfl
@[simp] theorem setRom_phase (a : Address) : (setRom a s).phase = s.phase := rfl
@[simp] theorem setRom_lastd (a : Address) : (setRom a s).lastd = s.lastd := rfl
@[simp] theorem setRom_rom (a : Address) : (setRom a s).rom = a := rfl
@[simp] theorem setRom_buf (a : Address) : (setRom a s).buf = s.buf := rfl
@[simp] theorem setRom_whole (a : Address) : (setRom a s).whole = s.whole := rfl
@[simp] theorem setRom_frac (a : Address) : (setRom a s).frac = s.frac := rfl
@[simp] theorem setRom_tlen (a : Address) : (setRom a s).tlen = s.tlen := rfl
@[simp] theorem setRom_tstr (a : Address) : (setRom a s).tstr = s.tstr := rfl
@[simp] theorem setRom_resp (a : Address) : (setRom a s).resp = s.resp := rfl
@[simp] theorem setRom_stalled (a : Address) : (setRom a s).stalled = s.stalled := rfl
@[simp] theorem setRom_port (a : Address) : (setRom a s).port = s.port := rfl
@[simp] theorem setRom_inputs (a : Address) : (setRom a s).inputs = s.inputs := rfl
@[simp] theorem setRom_params (a : Address) : (setRom a s).params = s.params := rfl

@[simp] theorem setPort_crc (p : BusPort) : (setPort p s).crc = s.crc := rfl
@[simp] theorem setPort_ck (p : BusPort) : (setPort p s).ck = s.ck := rfl
@[simp] theorem setPort_fd (p : BusPort) : (setPort p s).fd = s.fd := rfl
@[simp] theorem setPort_ng (p : BusPort) : (setPort p s).ng = s.ng := rfl
@[simp] theorem setPort_phase (p : BusPort) : (setPort p s).phase = s.phase := rfl
@[simp] theorem setPort_lastd (p : BusPort) : (setPort p s).lastd = s.lastd := rfl
@[simp] theorem setPort_rom (p : BusPort) : (setPort p s).rom = s.rom := rfl
@[simp] theorem setPort_buf (p : BusPort) : (setPort p s).buf = s.buf := rfl
@[simp] theorem setPort_whole (p : BusPort) : (setPort p s).whole = s.whole := rfl
@[simp] theorem setPort_frac (p : BusPort) : (setPort p s).frac = s.frac := rfl
@[simp] theorem setPort_tlen (p : BusPort) : (setPort p s).tlen = s.tlen := rfl
@[simp] theorem setPort_tstr (p : BusPort) : (setPort p s).tstr = s.tstr := rfl
@[simp] theorem setPort_resp (p : BusPort) : (setPort p s).resp = s.resp := rfl
@[simp] theorem setPort_stalled (p : BusPort) : (setPort p s).stalled = s.stalled := rfl
@[simp] theorem setPort_port (p : BusPort) : (setPort p s).port = p := rfl
@[simp] theorem setPort_inputs (p : BusPort) : (setPort p s).inputs = s.inputs := rfl
@[simp] theorem setPort_params (p : BusPort) : (setPort p s).params = s.params := rfl

@[simp] theorem setStalled_crc (b : Bool) : (setStalled b s).crc = s.crc := rfl
@[simp] theorem setStalled_ck (b : Bool) : (setStalled b s).ck = s.ck := rfl
@[simp] theorem setStalled_fd (b : Bool) : (setStalled b s).fd = s.fd := rfl
@[simp] theorem setStalled_ng (b : Bool) : (setStalled b s).ng = s.ng := rfl
@[simp] theorem setStalled_phase (b : Bool) : (setStalled b s).phase = s.phase := rfl
@[simp] theorem setStalled_lastd (b : Bool) : (setStalled b s).lastd = s.lastd := rfl
@[simp] theorem setStalled_rom (b : Bool) : (setStalled b s).rom = s.rom := rfl
@[simp] theorem setStalled_buf (b : Bool) : (setStalled b s).buf = s.buf := rfl
@[simp] theorem setStalled_whole (b : Bool) : (setStalled b s).whole = s.whole := rfl
@[simp] theorem setStalled_frac (b : Bool) : (setStalled b s).frac = s.frac := rfl
@[simp] theorem setStalled_tlen (b : Bool) : (setStalled b s).tlen = s.tlen := rfl
@[simp] theorem setStalled_tstr (b : Bool) : (setStalled b s).tstr = s.tstr := rfl
@[simp] theorem setStalled_resp (b : Bool) : (setStalled b s).resp = s.resp := rfl
@[simp] theorem setStalled_stalled (b : Bool) : (setStalled b s).stalled = b := rfl
@[simp] theorem setStalled_port (b : Bool) : (setStalled b s).port = s.port := rfl
@[simp] theorem setStalled_inputs (b : Bool) : (setStalled b s).inputs = s.inputs := rfl
@[simp] theorem setStalled_params (b : Bool) : (setStalled b s).params = s.params := rfl

@[simp] theorem clearResult_crc : (clearResult s).crc = s.crc := rfl
@[simp] theorem clearResult_ck : (clearResult s).ck = s.ck := rfl
@[simp] theorem clearResult_fd : (clearResult s).fd = s.fd := rfl
@[simp] theorem clearResult_ng : (clearResult s).ng = false := rfl
@[simp] theorem clearResult_phase : (clearResult s).phase = s.phase := rfl
@[simp] theorem clearResult_lastd : (clearResult s).lastd = s.lastd := rfl
@[simp] theorem clearResult_rom : (clearResult s).rom = s.rom := rfl
@[simp] theorem clearResult_buf : (clearResult s).buf = s.buf := rfl
@[simp] theorem clearResult_whole : (clearResult s).whole = 0 := rfl
@[simp] theorem clearResult_frac : (clearResult s).frac = 0 := rfl
@[simp] theorem clearResult_tlen : (clearResult s).tlen = 0 := rfl
@[simp] theorem clearResult_tstr : (clearResult s).tstr = padText [] := rfl
@[simp] theorem clearResult_resp : (clearResult s).resp = s.resp := rfl
@[simp] theorem clearResult_stalled : (clearResult s).stalled = s.stalled := rfl
@[simp] theorem clearResult_port : (clearResult s).port = s.port := rfl
@[simp] theorem clearResult_inputs : (clearResult s).inputs = s.inputs := rfl
@[simp] theorem clearResult_params : (clearResult s).params = s.params := rfl

@[simp] theorem storeReading_crc (r : Reading) : (storeReading r s).crc = s.crc := rfl
@[simp] theorem storeReading_ck (r : Reading) : (storeReading r s).ck = s.ck := rfl
@[simp] theorem storeReading_fd (r : Reading) : (storeReading r s).fd = s.fd := rfl
@[simp] theorem storeReading_ng (r : Reading) : (storeReading r s).ng = r.neg := rfl
@[simp] theorem storeReading_phase (r : Reading) : (storeReading r s).phase = s.phase := rfl
@[simp] theorem storeReading_lastd (r : Reading) : (storeReading r s).lastd = s.lastd := rfl
@[simp] theorem storeReading_rom (r : Reading) : (storeReading r s).rom = s.rom := rfl
@[simp] theorem storeReading_buf (r : Reading) : (storeReading r s).buf = s.buf := rfl
@[simp] theorem storeReading_whole (r : Reading) : (storeReading r s).whole = BitVec.ofNat 12 r.whole := rfl
@[simp] theorem storeReading_frac (r : Reading) : (storeReading r s).frac = BitVec.ofNat 7 r.frac := rfl
@[simp] theorem storeReading_tlen (r : Reading) : (storeReading r s).tlen = BitVec.ofNat 4 r.text.length := rfl
@[simp] theorem storeReading_tstr (r : Reading) : (storeReading r s).tstr = padText r.text := rfl
@[simp] theorem storeReading_resp (r : Reading) : (storeReading r s).resp = s.resp := rfl
@[simp] theorem storeReading_stalled (r : Reading) : (storeReading r s).stalled = s.stalled := rfl
@[simp] theorem storeReading_port (r : Reading) : (storeReading r s).port = s.port := rfl
@[simp] theorem storeReading_inputs (r : Reading) : (storeReading r s).inputs = s.inputs := rfl
@[simp] theorem storeReading_params (r : Reading) : (storeReading r s).params = s.params := rfl

@[simp] theorem applyBusChange_crc (e : BusEnv) : (applyBusChange e s).crc = s.crc := rfl
@[simp] theorem applyBusChange_ck (e : BusEnv) : (applyBusChange e s).ck = s.ck := rfl
@[simp] theorem applyBusChange_fd (e : BusEnv) : (applyBusChange e s).fd = s.fd := rfl
@[simp] theorem applyBusChange_ng (e : BusEnv) : (applyBusChange e s).ng = s.ng := rfl
@[simp] theorem applyBusChange_phase (e : BusEnv) : (applyBusChange e s).phase = s.phase := rfl
@[simp] theorem applyBusChange_lastd (e : BusEnv) : (applyBusChange e s).lastd = s.lastd := rfl
@[simp] theorem applyBusChange_rom (e : BusEnv) : (applyBusChange e s).rom = s.rom := rfl
@[simp] theorem applyBusChange_buf (e : BusEnv) : (applyBusChange e s).buf = s.buf := rfl
@[simp] theorem applyBusChange_whole (e : BusEnv) : (applyBusChange e s).whole = s.whole := rfl
@[simp] theorem applyBusChange_frac (e : BusEnv) : (applyBusChange e s).frac = s.frac := rfl
@[simp] theorem applyBusChange_tlen (e : BusEnv) : (applyBusChange e s).tlen = s.tlen := rfl
@[simp] theorem applyBusChange_tstr (e : BusEnv) : (applyBusChange e s).tstr = s.tstr := rfl
@[simp] theorem applyBusChange_resp (e : BusEnv) : (applyBusChange e s).resp = s.resp := rfl
@[simp] theorem applyBusChange_stalled (e : BusEnv) : (applyBusChange e s).stalled = s.stalled := rfl
@[simp] theorem applyBusChange_port (e : BusEnv) : (applyBusChange e s).port = { env := e, log := s.port.log } := rfl
@[simp] theorem applyBusChange_inputs (e : BusEnv) : (applyBusChange e s).inputs = s.inputs := rfl
@[simp] theorem applyBusChange_params (e : BusEnv) : (applyBusChange e s).params = s.params := rfl

@[simp] theorem applyPowerOnReset_crc : (applyPowerOnReset s).crc = State.reset.crc := rfl
@[simp] theorem applyPowerOnReset_ck : (applyPowerOnReset s).ck = State.reset.ck := rfl
@[simp] theorem applyPowerOnReset_fd : (applyPowerOnReset s).fd = State.reset.fd := rfl
@[simp] theorem applyPowerOnReset_ng : (applyPowerOnReset s).ng = State.reset.ng := rfl
@[simp] theorem applyPowerOnReset_phase : (applyPowerOnReset s).phase = State.reset.phase := rfl
@[simp] theorem applyPowerOnReset_lastd : (applyPowerOnReset s).lastd = State.reset.lastd := rfl
@[simp] theorem applyPowerOnReset_rom : (applyPowerOnReset s).rom = State.reset.rom := rfl
@[simp] theorem applyPowerOnReset_buf : (applyPowerOnReset s).buf = State.reset.buf := rfl
@[simp] theorem applyPowerOnReset_whole : (applyPowerOnReset s).whole = State.reset.whole := rfl
@[simp] theorem applyPowerOnReset_frac : (applyPowerOnReset s).frac = State.reset.frac := rfl
@[simp] theorem applyPowerOnReset_tlen : (applyPowerOnReset s).tlen = State.reset.tlen := rfl
@[simp] theorem applyPowerOnReset_tstr : (applyPowerOnReset s).tstr = State.reset.tstr := rfl
@[simp] theorem applyPowerOnReset_resp : (applyPowerOnReset s).resp = State.reset.resp := rfl
@[simp] theorem applyPowerOnReset_stalled : (applyPowerOnReset s).stalled = State.reset.stalled := rfl
@[simp] theorem applyPowerOnReset_port : (applyPowerOnReset s).port = s.port := rfl
@[simp] theorem applyPowerOnReset_inputs : (applyPowerOnReset s).inputs = s.inputs := rfl
@[simp] theorem applyPowerOnReset_params : (applyPowerOnReset s).params = s.params := rfl

end Sys2Proof.Machine
end

