-- ==== Sys2Proof/Laws/Ops.lean ====
section
/-!
SUPPORT. What the shared operations of Machine/Ops.lean can do, each said once.
-/

namespace Sys2Proof.Machine

/-- R64: a response word as a number. -/
theorem responseWord_eq_answer (c : OutcomeCode) (d : Byte) :
    some (responseWord c d) = answer (outcomeBits c).toNat d := by
  simp only [answer, Option.some.injEq]
  revert d
  cases c <;> decide +kernel

theorem outcomeBits_lt (c : OutcomeCode) : (outcomeBits c).toNat < 8 := (outcomeBits c).isLt

/-- Two responses are equal exactly when their codes and their data are. -/
theorem answer_eq_iff {c c' : Nat} {d d' : Byte} (h : c < 8) (h' : c' < 8) :
    answer c d = answer c' d' ↔ c = c' ∧ d = d' := by
  have := d.isLt
  have := d'.isLt
  constructor
  · intro he
    simp only [answer, Option.some.injEq] at he
    have he := congrArg BitVec.toNat he
    simp only [BitVec.toNat_ofNat] at he
    exact ⟨by omega, BitVec.eq_of_toNat_eq (by omega)⟩
  · rintro ⟨rfl, rfl⟩
    rfl

theorem bufAddr_toNat (idx : BitVec 4) : (bufAddr idx).toNat = 0x20 + idx.toNat := by
  revert idx
  decide

/-- R42: a write changes the buffer and nothing else. -/
theorem memWrite_changes_buf {s s' : State} {a v : Byte} (h : memWrite s a v = some s') :
    (0x20 ≤ a.toNat ∧ a.toNat ≤ 0x28) ∧ s' = { s with buf := s.buf.setIfInBounds (a.toNat - 0x20) v } := by
  unfold memWrite at h
  split at h <;> rename_i hr
  · exact ⟨hr, (Option.some.inj h).symm⟩
  · cases h

/-- R41: which addresses have a value. -/
theorem memRead_isSome_iff (s : State) (a : Byte) : (memRead s a).isSome = true ↔ MappedAddress a.toNat := by
  unfold memRead MappedAddress
  split <;> rename_i h
  all_goals try simp only [h, Option.isSome_some, Nat.zero_le, Nat.reduceLeDiff, true_or, iff_self]
  split
  · rename_i h2
    rw [Vector.getElem?_eq_getElem (by omega)]
    simp only [Option.isSome_some, true_iff]
    omega
  · split
    · rename_i h2
      rw [Vector.getElem?_eq_getElem (by omega)]
      simp only [Option.isSome_some, true_iff]
      omega
    · split
      · rename_i h2
        rw [Vector.getElem?_eq_getElem (by omega)]
        simp only [Option.isSome_some, true_iff]
        omega
      · simp only [Option.isSome_none, Bool.false_eq_true, false_iff]
        rintro (h | h | h | h)
        · interval_cases a.toNat <;> simp_all
        all_goals contradiction

/-- R129: the string register holds the text, then zeros. -/
theorem padText_toList (s : List Byte) (h : s.length ≤ 8) :
    (padText s).toList = s ++ List.replicate (8 - s.length) 0 := by
  match s, h with
  | [], _ => rfl
  | [_], _ => rfl
  | [_, _], _ => rfl
  | [_, _, _], _ => rfl
  | [_, _, _, _], _ => rfl
  | [_, _, _, _, _], _ => rfl
  | [_, _, _, _, _, _], _ => rfl
  | [_, _, _, _, _, _, _], _ => rfl
  | [_, _, _, _, _, _, _, _], _ => rfl
  | _ :: _ :: _ :: _ :: _ :: _ :: _ :: _ :: _ :: _, h => simp only [List.length_cons] at h; omega

theorem padText_nil : padText [] = #v[0, 0, 0, 0, 0, 0, 0, 0] := rfl

end Sys2Proof.Machine
end

