-- ==== Sys2Proof/Laws/PerInstr.lean ====
section
/-!
SUPPORT. One statement per operation: its words agree with its row of spec/opcode_table.json.
-/

namespace Sys2Proof.Laws

/-- The `mask` of an operation's row (spec/30_encoding.md R63). -/
def rowMask : Instr → Word
  | .nop => 0xFFFF
  | .crcclr => 0xFFFF
  | .crcupd _ => 0xFF00
  | .chka => 0xFFFF
  | .chks => 0xFFFF
  | .srst => 0xFFFF
  | .next => 0xFFFF
  | .decode _ => 0xFF00
  | .wrb _ _ => 0xF000
  | .rd _ => 0xFF00

/-- The `match` of an operation's row (R63). -/
def rowMatch : Instr → Word
  | .nop => 0x0000
  | .crcclr => 0x1000
  | .crcupd _ => 0x2000
  | .chka => 0x3000
  | .chks => 0x4000
  | .srst => 0x5000
  | .next => 0x6000
  | .decode _ => 0x7000
  | .wrb _ _ => 0x8000
  | .rd _ => 0x9000

/-- The operand's value in its place (R61, R62). -/
def operandBits : Instr → Nat
  | .nop => 0
  | .crcclr => 0
  | .crcupd imm8 => imm8.toNat
  | .chka => 0
  | .chks => 0
  | .srst => 0
  | .next => 0
  | .decode fam => fam.toNat
  | .wrb idx imm8 => 256 * idx.toNat + imm8.toNat
  | .rd addr => addr.toNat

/-- The word of an operation is its row's `match` under the row's `mask`, and its operand elsewhere (R63). -/
def MatchMask.Statement (i : Instr) : Prop :=
  encode i &&& rowMask i = rowMatch i ∧ (encode i &&& ~~~rowMask i).toNat = operandBits i

theorem MatchMask.nop : MatchMask.Statement .nop := ⟨by decide, by decide⟩
theorem MatchMask.crcclr : MatchMask.Statement .crcclr := ⟨by decide, by decide⟩
theorem MatchMask.chka : MatchMask.Statement .chka := ⟨by decide, by decide⟩
theorem MatchMask.chks : MatchMask.Statement .chks := ⟨by decide, by decide⟩
theorem MatchMask.srst : MatchMask.Statement .srst := ⟨by decide, by decide⟩
theorem MatchMask.next : MatchMask.Statement .next := ⟨by decide, by decide⟩
theorem MatchMask.crcupd : ∀ imm8, MatchMask.Statement (.crcupd imm8) := by
  unfold MatchMask.Statement
  decide +kernel
theorem MatchMask.decode : ∀ fam, MatchMask.Statement (.decode fam) := by
  unfold MatchMask.Statement
  decide +kernel
theorem MatchMask.rd : ∀ addr, MatchMask.Statement (.rd addr) := by
  unfold MatchMask.Statement
  decide +kernel
theorem MatchMask.wrb : ∀ idx imm8, MatchMask.Statement (.wrb idx imm8) := by
  unfold MatchMask.Statement
  decide +kernel

end Sys2Proof.Laws
end

