-- ==== Sys2Proof/Laws/Scanner.lean ====
section
/-!
SUPPORT. What a search pass and the operation `NEXT` can do, on any bus and on an oracle (spec/41_scanner.md R106 to R111).
-/

namespace Sys2Proof.Machine

theorem addrBit_zeroAddress {j : Nat} (h : j < 64) : addrBit zeroAddress j = false := by
  revert j
  decide

/-- `last_zero` stays 0 or a position of the loop. -/
theorem searchBits_lastZero_le (lastd : Nat) (rom : Address) (n k : Nat) (work : Address) (lz : Nat) (p : BusPort)
    (hk : k + n ≤ 65) (hlz : lz < k) {w : Address} {z : Nat} {q : BusPort}
    (h : searchBits lastd rom n k work lz p = .complete w z q) : z ≤ 64 := by
  induction n generalizing k work lz p with
  | zero =>
    simp only [searchBits, Pass.complete.injEq] at h
    omega
  | succ n ih =>
    simp only [searchBits] at h
    split at h
    · cases h
    · split at h
      · cases h
      · split at h
        · cases h
        · split at h
          · cases h
          · refine ih _ _ _ _ (by omega) ?_ h
            unfold nextLastZero
            split <;> omega

theorem searchPass_lastZero_le {lastd : Nat} {rom : Address} {p : BusPort} {w : Address} {z : Nat} {q : BusPort}
    (h : searchPass lastd rom p = .complete w z q) : z ≤ 64 := by
  unfold searchPass at h
  split at h
  · cases h
  · cases h
  · split at h
    · cases h
    · exact searchBits_lastZero_le _ _ 64 1 _ 0 _ (by omega) (by omega) h

/-- Positions that complete, on any bus: the pairs read, none of them (1, 1), the directions taken and written, their
primitives on the log, the address bits, and the new `last_zero`. -/
theorem searchBits_complete (lastd : Nat) (rom : Address) (n k : Nat) (work : Address) (lz : Nat) (p : BusPort)
    (hk : 1 ≤ k) (hn : k + n ≤ 65) (hlz : lz < k) {w : Address} {z : Nat} {q : BusPort}
    (h : searchBits lastd rom n k work lz p = .complete w z q) :
    ∃ qs : List (Bool × Bool × Bool), qs.length = n ∧ (∀ q ∈ qs, ¬(q.1 = true ∧ q.2.1 = true)) ∧
      q.log = (qs.flatMap positionEvents).reverse ++ p.log ∧
      (∀ j < 64, j < k - 1 → addrBit w j = addrBit work j) ∧
      (∀ i (h : i < qs.length), qs[i].2.2 = searchDir lastd rom (k + i) qs[i].1 qs[i].2.1 ∧
        addrBit w (k - 1 + i) = qs[i].2.2) ∧
      z = (qs.mapIdx fun i q => if q.1 = q.2.1 ∧ q.2.2 = false then k + i else 0).foldl max lz := by
  induction n generalizing k work lz p with
  | zero =>
    simp only [searchBits, Pass.complete.injEq] at h
    exact ⟨[], rfl, by simp, by simp [h.2.2], by simp [h.1], by simp, by simp [h.2.1]⟩
  | succ n ih =>
    simp only [searchBits] at h
    rcases busReadBit_cases p with ⟨b1, e1, h1⟩ | ⟨_, h1⟩ <;> rw [h1] at h <;> simp only at h
    · rcases busReadBit_cases ⟨e1, .readBit b1 :: p.log⟩ with ⟨b2, e2, h2⟩ | ⟨_, h2⟩ <;> rw [h2] at h <;> simp only at h
      · split at h
        · cases h
        · rename_i hb
          generalize hd : searchDir lastd rom k b1 b2 = d at h
          rcases busWriteBit_cases ⟨e2, .readBit b2 :: .readBit b1 :: p.log⟩ d with ⟨b3, e3, h3⟩ | ⟨_, h3⟩ <;>
            rw [h3] at h
          · have hz : nextLastZero k lz b1 b2 d < k + 1 := by
              unfold nextLastZero
              split <;> omega
            obtain ⟨qs, hq, hnp, hl, hw, hdir, hlast⟩ := ih (k + 1) _ _ _ (by omega) (by omega) hz h
            refine ⟨(b1, b2, d) :: qs, by simp [hq], ?_, by simp [hl, positionEvents], ?_, ?_, ?_⟩
            · intro q' hq'
              rcases List.mem_cons.1 hq' with rfl | hm
              · simpa using hb
              · exact hnp q' hm
            · intro j hj hjk
              rw [hw j hj (by omega), addrBit_setAddrBit _ _ _ _ (by omega), if_neg (by omega)]
            · intro i hi
              cases i with
              | zero =>
                refine ⟨hd.symm, ?_⟩
                simp only [Nat.add_zero, List.getElem_cons_zero]
                rw [hw (k - 1) (by omega) (by omega), addrBit_setAddrBit _ _ _ _ (by omega), if_pos rfl]
              | succ i =>
                have hi' := hdir i (by simpa using hi)
                simp only [List.getElem_cons_succ]
                rw [show k + (i + 1) = k + 1 + i by omega, show k - 1 + (i + 1) = k + 1 - 1 + i by omega]
                exact hi'
            · rw [hlast, List.mapIdx_cons, List.foldl_cons]
              have hf : (fun i (q : Bool × Bool × Bool) => if q.1 = q.2.1 ∧ q.2.2 = false then k + 1 + i else 0) =
                  fun i q => if q.1 = q.2.1 ∧ q.2.2 = false then k + (i + 1) else 0 := by
                funext i q
                rw [show k + 1 + i = k + (i + 1) by omega]
              have hm : nextLastZero k lz b1 b2 d = max lz (if b1 = b2 ∧ d = false then k + 0 else 0) := by
                unfold nextLastZero
                by_cases hc : b1 = b2 ∧ d = false
                · rw [if_pos (by simp [hc.1, hc.2]), if_pos hc]
                  omega
                · rw [if_neg (by simpa using hc), if_neg hc]
                  omega
              rw [hf, hm]
          · cases h
      · cases h
    · cases h

/-- A loop that aborts read the pair (1, 1) after some resolved positions. -/
theorem searchBits_abort (lastd : Nat) (rom : Address) (n k : Nat) (work : Address) (lz : Nat) (p : BusPort)
    {q : BusPort} (h : searchBits lastd rom n k work lz p = .abort q) :
    ∃ qs : List (Bool × Bool × Bool), qs.length < n ∧ (∀ q ∈ qs, ¬(q.1 = true ∧ q.2.1 = true)) ∧
      q.log = (qs.flatMap positionEvents ++ [BusEvent.readBit true, BusEvent.readBit true]).reverse ++ p.log := by
  induction n generalizing k work lz p with
  | zero =>
    simp only [searchBits] at h
    cases h
  | succ n ih =>
    simp only [searchBits] at h
    rcases busReadBit_cases p with ⟨b1, e1, h1⟩ | ⟨_, h1⟩ <;> rw [h1] at h <;> simp only at h
    · rcases busReadBit_cases ⟨e1, .readBit b1 :: p.log⟩ with ⟨b2, e2, h2⟩ | ⟨_, h2⟩ <;> rw [h2] at h <;> simp only at h
      · split at h
        · rename_i hb
          simp only [Bool.and_eq_true] at hb
          cases h
          exact ⟨[], by simp, by simp, by simp [hb]⟩
        · rename_i hb
          generalize searchDir lastd rom k b1 b2 = d at h
          rcases busWriteBit_cases ⟨e2, .readBit b2 :: .readBit b1 :: p.log⟩ d with ⟨b3, e3, h3⟩ | ⟨_, h3⟩ <;>
            rw [h3] at h
          · obtain ⟨qs, hq, hnp, hl⟩ := ih _ _ _ _ h
            refine ⟨(b1, b2, d) :: qs, by simp [hq], ?_, by simp [hl, positionEvents]⟩
            intro q' hq'
            rcases List.mem_cons.1 hq' with rfl | hm
            · simpa using hb
            · exact hnp q' hm
          · cases h
      · cases h
    · cases h

/-- A completed pass on any bus: its primitives (R112), the address found and the new `last_zero` (R108, R109). -/
theorem searchPass_complete {lastd : Nat} {rom : Address} {p : BusPort} {w : Address} {z : Nat} {q : BusPort}
    (h : searchPass lastd rom p = .complete w z q) :
    ∃ qs : List (Bool × Bool × Bool), qs.length = 64 ∧ (∀ q ∈ qs, ¬(q.1 = true ∧ q.2.1 = true)) ∧
      q.log = (passEvents qs).reverse ++ p.log ∧
      (∀ i (h : i < qs.length), qs[i].2.2 = searchDir lastd rom (1 + i) qs[i].1 qs[i].2.1 ∧
        addrBit w i = qs[i].2.2) ∧
      z = lastZeroOf qs := by
  unfold searchPass at h
  rcases busReset_cases p with ⟨_ | _, e1, h1⟩ | ⟨_, h1⟩ <;> rw [h1] at h
  · cases h
  · simp only at h
    split at h
    · cases h
    · rename_i hw
      obtain ⟨qs, h2, h3, h4, -, h6, h7⟩ :=
        searchBits_complete _ _ _ _ _ _ _ (by omega) (by omega) (by omega) h
      have hl := busWriteBits_log _ _ _ _ hw
      rw [searchCommand_events] at hl
      refine ⟨qs, h2, h3, by rw [h4, hl]; simp [passEvents], ?_, ?_⟩
      · intro i hi
        have hb := h6 i hi
        rw [show 1 - 1 + i = i by omega] at hb
        exact hb
      · rw [h7]
        simp only [lastZeroOf, Nat.add_comm 1]
  · cases h

/-- The primitives of an aborted pass (R110, R112). -/
theorem searchPass_abort {lastd : Nat} {rom : Address} {p q : BusPort} (h : searchPass lastd rom p = .abort q) :
    q.log = .reset false :: p.log ∨
    ∃ qs : List (Bool × Bool × Bool), qs.length < 64 ∧ (∀ q ∈ qs, ¬(q.1 = true ∧ q.2.1 = true)) ∧
      q.log = (passEvents qs ++ [BusEvent.readBit true, BusEvent.readBit true]).reverse ++ p.log := by
  unfold searchPass at h
  rcases busReset_cases p with ⟨_ | _, e1, h1⟩ | ⟨_, h1⟩ <;> rw [h1] at h
  · cases h
    exact .inl rfl
  · simp only at h
    split at h
    · cases h
    · rename_i hw
      obtain ⟨qs, h2, h3, h4⟩ := searchBits_abort _ _ _ _ _ _ _ h
      have hl := busWriteBits_log _ _ _ _ hw
      rw [searchCommand_events] at hl
      exact .inr ⟨qs, h2, h3, by rw [h4, hl]; simp [passEvents]⟩
  · cases h

theorem passEvents_length (qs : List (Bool × Bool × Bool)) : (passEvents qs).length = 9 + 3 * qs.length := by
  induction qs with
  | nil => rfl
  | cons q qs ih =>
    simp only [passEvents, List.cons_append, List.length_cons, List.length_append, List.flatMap_cons, positionEvents,
      List.length_nil] at ih ⊢
    omega

/-- Everything a `NEXT` can do: NOMORE, a completed pass, an aborted one, a wait. -/
theorem execNext_cases (s : State) : ∃ t, exec .next s = .next t ∧
    ((s.phase = .exhausted ∧ t = { s with fd := false, resp := answer 5 0 }) ∨
     (s.phase ≠ .exhausted ∧ ∃ w z q, searchPass s.lastd.toNat s.rom s.port = .complete w z q ∧ z ≤ 64 ∧
        t = { s with rom := w, lastd := BitVec.ofNat 7 z, fd := true, phase := phaseAfter z, resp := answer 0 w[0],
                     port := q }) ∨
     (s.phase ≠ .exhausted ∧ ∃ q, searchPass s.lastd.toNat s.rom s.port = .abort q ∧
        t = { s with lastd := 0, fd := false, phase := .exhausted, resp := answer 1 0, port := q }) ∨
     (s.phase ≠ .exhausted ∧ ∃ q, searchPass s.lastd.toNat s.rom s.port = .hung q ∧
        t = { s with stalled := true, port := q })) := by
  by_cases hp : s.phase = .exhausted
  · refine ⟨noMorePass s, by simp only [exec, execNext, hp, if_true], .inl ⟨hp, ?_⟩⟩
    simp [noMorePass, respond, setFd, responseWord_eq_answer, outcomeBits]
  · simp only [exec, execNext, hp, if_false]
    rcases hs : searchPass s.lastd.toNat s.rom s.port with ⟨w, z, q⟩ | q | q
    · refine ⟨_, rfl, .inr (.inl ⟨hp, w, z, q, rfl, searchPass_lastZero_le hs, ?_⟩)⟩
      simp [completePass, respond, setRom, setCursor, setPort, responseWord_eq_answer, outcomeBits]
    · refine ⟨_, rfl, .inr (.inr (.inl ⟨hp, q, rfl, ?_⟩))⟩
      simp [abortPass, respond, setCursor, setPort, responseWord_eq_answer, outcomeBits]
    · exact ⟨_, rfl, .inr (.inr (.inr ⟨hp, q, rfl, rfl⟩))⟩

/-- The positions `k`, `k + 1`, … with the pairs of `qs` and the directions R108 takes. -/
def resolvedPositions (lastd : Nat) (rom : Address) (k : Nat) :
    List (Bool × Bool × Bool) → List (Bool × Bool × Bool)
  | [] => []
  | q :: qs => (q.1, q.2.1, searchDir lastd rom k q.1 q.2.1) :: resolvedPositions lastd rom (k + 1) qs

theorem resolvedPositions_eq_mapIdx (s : State) (qs : List (Bool × Bool × Bool)) (k : Nat) :
    resolvedPositions s.lastd.toNat s.rom (k + 1) qs =
      qs.mapIdx fun i q => (q.1, q.2.1, pathDirection s (i + k) q) := by
  induction qs generalizing k with
  | nil => rfl
  | cons q qs ih =>
    have hd : searchDir s.lastd.toNat s.rom (k + 1) q.1 q.2.1 = pathDirection s (0 + k) q := by
      simp only [searchDir, discrepancyDir, pathDirection, Nat.zero_add, Nat.add_sub_cancel]
      by_cases h : q.1 = q.2.1 <;> simp [h]
    rw [resolvedPositions, List.mapIdx_cons, ih, hd]
    congr 2
    funext i q
    rw [show i + (k + 1) = i + 1 + k by omega]

/-- The loop on an oracle that answers the positions `qs`, none of them (1, 1): where it goes on, what the address
bits are, and which position `last_zero` names. -/
theorem searchBits_oracle (lastd : Nat) (rom : Address) (qs : List (Bool × Bool × Bool)) :
    ∀ (n k : Nat) (work : Address) (lz : Nat) (rest : List BusAnswer) (log : List BusEvent),
    (∀ q ∈ qs, ¬(q.1 = true ∧ q.2.1 = true)) → 1 ≤ k → k + qs.length ≤ 65 → lz < k →
    ∃ work' lz',
      searchBits lastd rom (qs.length + n) k work lz ⟨.oracle (qs.flatMap positionAnswers ++ rest), log⟩ =
        searchBits lastd rom n (k + qs.length) work' lz'
          ⟨.oracle rest, ((resolvedPositions lastd rom k qs).flatMap positionEvents).reverse ++ log⟩ ∧
      (∀ j < 64, (j < k - 1 ∨ k - 1 + qs.length ≤ j) → addrBit work' j = addrBit work j) ∧
      (∀ i (h : i < qs.length), addrBit work' (k - 1 + i) = searchDir lastd rom (k + i) qs[i].1 qs[i].2.1) ∧
      (lz' = lz ∨ ∃ i, ∃ (h : i < qs.length), lz' = k + i ∧ qs[i].1 = qs[i].2.1 ∧
        searchDir lastd rom (k + i) qs[i].1 qs[i].2.1 = false) ∧
      (∀ i (h : i < qs.length), qs[i].1 = qs[i].2.1 → searchDir lastd rom (k + i) qs[i].1 qs[i].2.1 = false →
        k + i ≤ lz') ∧
      lz ≤ lz' ∧ lz' < k + qs.length := by
  induction qs with
  | nil =>
    intro n k work lz rest log h hk hn hl
    exact ⟨work, lz, by simp [resolvedPositions], by simp, by simp, by simp, by simp, by simp, by simpa using hl⟩
  | cons q qs ih =>
    intro n k work lz rest log h hk hn hl
    obtain ⟨id, cmp, tok⟩ := q
    have hq := h (id, cmp, tok) (by simp)
    simp only [List.length_cons] at hn
    have hdef : (id && cmp) = false := by simpa using hq
    have hnl : nextLastZero k lz id cmp (searchDir lastd rom k id cmp) < k + 1 ∧
        lz ≤ nextLastZero k lz id cmp (searchDir lastd rom k id cmp) := by
      unfold nextLastZero
      split <;> omega
    obtain ⟨w', l', e, a1, a2, a3, a4, a5, a6⟩ := ih n (k + 1)
      (setAddrBit work (k - 1) (searchDir lastd rom k id cmp))
      (nextLastZero k lz id cmp (searchDir lastd rom k id cmp)) rest
      (.writeBit (searchDir lastd rom k id cmp) :: .readBit cmp :: .readBit id :: log)
      (fun q hq => h q (by simp [hq])) (by omega) (by omega) hnl.1
    refine ⟨w', l', ?_, ?_, ?_, ?_, ?_, by omega, by simp only [List.length_cons]; omega⟩
    · rw [show (((id, cmp, tok) :: qs).length + n) = (qs.length + n) + 1 by simp only [List.length_cons]; omega]
      simp only [searchBits, List.flatMap_cons, positionAnswers, List.cons_append, List.nil_append, busReadBit_oracle,
        busWriteBit_oracle, hdef, Bool.false_eq_true, if_false]
      rw [e, show k + 1 + qs.length = k + (qs.length + 1) by omega]
      simp [resolvedPositions, positionEvents]
    · intro j hj hjj
      simp only [List.length_cons] at hjj
      rw [a1 j hj (by omega), addrBit_setAddrBit _ _ _ _ (by omega), if_neg (by omega)]
    · intro i hi
      cases i with
      | zero =>
        simp only [Nat.add_zero, List.getElem_cons_zero]
        rw [a1 (k - 1) (by omega) (by omega), addrBit_setAddrBit _ _ _ _ (by omega), if_pos rfl]
      | succ i =>
        simp only [List.getElem_cons_succ]
        rw [show k - 1 + (i + 1) = k + 1 - 1 + i by omega, a2 i (by simpa using hi),
          show k + 1 + i = k + (i + 1) by omega]
    · rcases a3 with a3 | ⟨i, hi, h1, h2, h3⟩
      · unfold nextLastZero at a3
        split at a3
        · rename_i hc
          simp only [Bool.and_eq_true, beq_iff_eq, Bool.not_eq_true'] at hc
          exact .inr ⟨0, by simp, by simpa using a3, hc.1, hc.2⟩
        · exact .inl a3
      · refine .inr ⟨i + 1, by simpa using hi, by omega, by simpa using h2, ?_⟩
        rw [show k + (i + 1) = k + 1 + i by omega]
        simpa using h3
    · intro i hi h1 h2
      cases i with
      | zero =>
        simp only [List.getElem_cons_zero, Nat.add_zero] at h1 h2
        have hz : nextLastZero k lz id cmp (searchDir lastd rom k id cmp) = k := by
          unfold nextLastZero
          rw [if_pos (by simp [h1, ← h2])]
        omega
      | succ i =>
        have := a4 i (by simpa using hi) (by simpa using h1)
          (by rw [show k + 1 + i = k + (i + 1) by omega]; simpa using h2)
        omega

/-- The bus reset and the search command on an oracle that answers them. -/
theorem searchPass_oracle (lastd : Nat) (rom : Address) (ignored : List Bool) (h : ignored.length = 8)
    (rest : List BusAnswer) (log : List BusEvent) :
    searchPass lastd rom ⟨.oracle (.bit true :: commandAnswers ignored ++ rest), log⟩ =
      searchBits lastd rom 64 1 zeroAddress 0
        ⟨.oracle rest, (BusEvent.reset true :: searchCommandEvents).reverse ++ log⟩ := by
  obtain ⟨b, hb⟩ := busWriteBits_oracle searchCommand ignored 0 rest (.reset true :: log)
  rw [h] at hb
  simp only [searchPass, commandAnswers, List.cons_append, busReset_oracle, busWriteByte, hb]
  congr 2

end Sys2Proof.Machine
end

