-- ==== Sys2Proof/Laws/Step.lean ====
section
/-!
SUPPORT. Everything a step can do, said once, and that no meaning faults or refuses.
-/

namespace Sys2Proof.Machine

/-- Every operation answers a next state (R151: a fault is a response). -/
theorem exec_answers_next (i : Instr) (s : State) : ∃ t, exec i s = .next t := by
  rcases h : exec i s with t | f | r
  · exact ⟨t, rfl⟩
  · cases f
  · exfalso
    cases i <;> simp only [exec, execNop, execCrcclr, execCrcupd, execChka, execChks, execSrst, execNext, execDecode,
      execWrb, execRd] at h <;> (repeat' split at h) <;> cases h

/-- The five things a step can be: nothing, a power-on reset, a change of the bus, an operation, a refused word. -/
theorem step_cases {s t : State} (h : step s = .next t) :
    t = s ∨
    (∃ rest, s.inputs = .powerOnReset :: rest ∧ t = applyPowerOnReset { s with inputs := rest }) ∨
    (∃ env rest, s.inputs = .busChange env :: rest ∧ t = applyBusChange env { s with inputs := rest }) ∨
    (∃ w rest i, s.inputs = .command w :: rest ∧ s.stalled = false ∧ decodeWord w = .ok i ∧
      exec i { s with inputs := rest } = .next t) ∨
    (∃ w rest e, s.inputs = .command w :: rest ∧ s.stalled = false ∧ decodeWord w = .error e ∧
      t = answerIllegal { s with inputs := rest }) := by
  rcases hi : s.inputs with _ | ⟨x, rest⟩
  · left
    simp only [step, fetch, hi, Host.Outcome.next.injEq] at h
    exact h.symm
  · cases x with
    | powerOnReset =>
      simp only [step, fetch, hi, Host.Outcome.next.injEq] at h
      exact .inr (.inl ⟨rest, rfl, h.symm⟩)
    | busChange env =>
      simp only [step, fetch, hi, Host.Outcome.next.injEq] at h
      exact .inr (.inr (.inl ⟨env, rest, rfl, h.symm⟩))
    | command w =>
      by_cases hs : s.stalled = true
      · left
        simp only [step, fetch, hi, hs, if_true, Host.Outcome.next.injEq] at h
        exact h.symm
      · have hs : s.stalled = false := by simpa using hs
        have hf : fetch s = .command w { s with inputs := rest } := by simp [fetch, hi, hs]
        rcases hd : decodeWord w with e | i <;> simp only [step, hf, hd] at h
        · injection h with h
          exact .inr (.inr (.inr (.inr ⟨w, rest, e, rfl, hs, hd, h.symm⟩)))
        · exact .inr (.inr (.inr (.inl ⟨w, rest, i, rfl, hs, hd, h⟩)))

/-- A word the decoder refuses is answered ILLEGAL, whatever the state (R66). -/
theorem refusesWord_of_decode_error {w : Word} {e : Illegal} (h : decodeWord w = .error e) : RefusesWord w := by
  intro s rest hi hs
  simp [step, fetch, hi, hs, h, answerIllegal, raiseFault, respond, responseWord, outcomeBits]

end Sys2Proof.Machine
end

