-- ==== Sys2Proof/Laws/Temperature.lean ====
section
/-!
SUPPORT. The numbers of the temperature decode as plain arithmetic, and the ranges its narrowings rest on
(spec/42_decoder.md R122 to R127).
-/

namespace Sys2Proof.Machine

theorem negTemp_iff (raw : BitVec 16) : negTemp raw = true ↔ 32768 ≤ raw.toNat := by
  have := raw.isLt
  unfold negTemp
  rw [BitVec.getLsbD, Nat.testBit_eq_decide_div_mod_eq, decide_eq_true_eq]
  omega

theorem magTemp_eq (raw : BitVec 16) :
    magTemp raw = if 32768 ≤ raw.toNat then 65536 - raw.toNat else raw.toNat := by
  have := raw.isLt
  unfold magTemp
  by_cases h : 32768 ≤ raw.toNat
  · rw [if_pos ((negTemp_iff raw).2 h), if_pos h]
    simp only [BitVec.toNat_add, BitVec.toNat_not, BitVec.toNat_ofNat]
    omega
  · rw [if_neg (by rw [negTemp_iff]; exact h), if_neg h]

theorem magTemp_le (raw : BitVec 16) : magTemp raw ≤ 32768 := by
  have := raw.isLt
  rw [magTemp_eq]
  split <;> omega

theorem decDigits_length (fuel n : Nat) (h : n ≤ fuel) (hn : n < 10000) :
    (decDigits fuel n).length = if n < 10 then 1 else if n < 100 then 2 else if n < 1000 then 3 else 4 := by
  induction fuel generalizing n with
  | zero =>
    simp only [decDigits, List.length_cons, List.length_nil]
    split <;> omega
  | succ fuel ih =>
    unfold decDigits
    by_cases h10 : n < 10
    · simp [h10]
    · rw [if_neg h10, List.length_append, ih (n / 10) (by omega) (by omega)]
      simp only [List.length_cons, List.length_nil, h10, if_false]
      split_ifs <;> omega

/-- R127: the string has 4 to 8 characters. -/
theorem readingOf_text_length (raw : BitVec 16) :
    4 ≤ (readingOf raw).text.length ∧ (readingOf raw).text.length ≤ 8 := by
  have hm := magTemp_le raw
  have hl := decDigits_length (wholeTemp (scaledTemp (magTemp raw))) (wholeTemp (scaledTemp (magTemp raw)))
    le_rfl (by simp only [wholeTemp, scaledTemp]; omega)
  simp only [readingOf, tstrOf, dec, dec2, List.length_append, hl, List.length_cons, List.length_nil]
  split_ifs <;> simp

/-- The registers hold the exact values: nothing is lost to their widths (R31, R124). -/
theorem readingOf_whole_toNat (raw : BitVec 16) :
    (BitVec.ofNat 12 (readingOf raw).whole).toNat = (readingOf raw).whole := by
  have := magTemp_le raw
  simp only [BitVec.toNat_ofNat, readingOf, wholeTemp, scaledTemp]
  omega

theorem readingOf_frac_toNat (raw : BitVec 16) :
    (BitVec.ofNat 7 (readingOf raw).frac).toNat = (readingOf raw).frac := by
  simp only [BitVec.toNat_ofNat, readingOf, fracTemp]
  omega

theorem readingOf_length_toNat (raw : BitVec 16) :
    (BitVec.ofNat 4 (readingOf raw).text.length).toNat = (readingOf raw).text.length := by
  have := readingOf_text_length raw
  simp only [BitVec.toNat_ofNat]
  omega

end Sys2Proof.Machine
end

