-- ==== Sys2Proof/Tests/Slice0.lean ====
section
/-!
SUPPORT. Tests. Expected values are the spec's (spec/95_test_vectors.md, by section; spec/30_encoding.md). The theorems
`witness_…` show, for each obligation with hypotheses, concrete values that meet them, at the ends of the ranges where
a statement has ranges.
-/

namespace Sys2Proof.Tests

open Sys2Proof.Machine

/-! ## Well-formedness and decoding -/

theorem test_wrb_index_nine_is_ill_formed : (Instr.wrb 9 0x00).wellFormed = false := by decide
theorem test_wrb_index_eight_is_well_formed : (Instr.wrb 8 0x1C).wellFormed = true := by decide
theorem test_rd_unmapped_is_ill_formed :
    [0x08, 0x0F, 0x18, 0x1F, 0x29, 0x2F, 0x38, 0xFF].all (fun a => !(Instr.rd a).wellFormed) = true := by decide
theorem test_rd_mapped_is_well_formed :
    [0x00, 0x07, 0x10, 0x17, 0x20, 0x28, 0x30, 0x37].all (fun a => (Instr.rd a).wellFormed) = true := by decide

theorem test_decode_nop : decodeWord 0b0000000000000000 = .ok .nop := by decide
theorem test_decode_crcclr : decodeWord 0b0001000000000000 = .ok .crcclr := by decide
theorem test_decode_crcupd : decodeWord 0b0010000000000001 = .ok (.crcupd 0x01) := by decide
theorem test_decode_chka : decodeWord 0b0011000000000000 = .ok .chka := by decide
theorem test_decode_chks : decodeWord 0b0100000000000000 = .ok .chks := by decide
theorem test_decode_srst : decodeWord 0b0101000000000000 = .ok .srst := by decide
theorem test_decode_next : decodeWord 0b0110000000000000 = .ok .next := by decide
theorem test_decode_decode : decodeWord 0b0111000000010000 = .ok (.decode 0x10) := by decide
theorem test_decode_wrb : decodeWord 0b1000100000011100 = .ok (.wrb 8 0x1C) := by decide
theorem test_decode_rd : decodeWord 0b1001000000110111 = .ok (.rd 0x37) := by decide

/-- Section 2, the words that must be refused. -/
theorem test_illegal_words :
    [0x0001, 0x0100, 0x0FFF, 0x1001, 0x1100, 0x2100, 0x2F01, 0x3001, 0x4100, 0x5010, 0x6100, 0x7128, 0x8900, 0x8A00,
     0x8FFF, 0x9008, 0x900F, 0x9018, 0x9029, 0x902F, 0x9038, 0x90FF, 0x9102, 0xA000, 0xB123, 0xC000, 0xD000, 0xE000,
     0xF000, 0xFFFF].all (fun n => (decodeTableWord 16 n).isNone) = true := by decide

theorem test_longer_words_refused : decodeTableWord 17 0 = none := by decide

/-- Section 8, P4: the assembler texts. -/
theorem test_assembler_texts :
    [0x80FE, 0x7028, 0x9007, 0x8900].map (fun n => wordText (BitVec.ofNat 16 n)) =
      ["WRB 0, 0xFE", "DECODE 0x28", "RD 0x07", ".word 0x8900"] := by decide +kernel

/-- R69, R70: comments, blanks, both number bases and a pseudo-operation. -/
theorem test_assembler_program :
    assembleProgram ["; P1", "  CRCSEQ 0x02, 28 ; two bytes", "RDSTAT", "WRB 3, 0x46", ".word 0x8900"] =
      some [0x1000, 0x2002, 0x201C, 0x9001, 0x8346, 0x8900] := by decide +kernel

theorem test_assembler_refuses : [assembleLine "WRB 9, 1", assembleLine "RD 0x08", assembleLine "NOP 1"] =
    [none, none, none] := by decide +kernel

/-! ## States -/

/-- The three devices of section 4.1. -/
def dev1 : Address := #v[0x28, 0x01, 0, 0, 0, 0, 0, 0x29]
def dev2 : Address := #v[0x28, 0x02, 0, 0, 0, 0, 0, 0x70]
def dev3 : Address := #v[0x10, 0x01, 0, 0, 0, 0, 0, 0xCC]

/-- The scratchpads of section 5: 85.00 and -0.12, and the first one with a bit of byte 0 flipped. -/
def pad85 : Scratchpad := #v[0x50, 0x05, 0x4B, 0x46, 0x7F, 0xFF, 0x0C, 0x10, 0x1C]
def padNeg : Scratchpad := #v[0xFE, 0xFF, 0x4B, 0x46, 0x7F, 0xFF, 0x02, 0x10, 0x8C]
def padBad : Scratchpad := #v[0x51, 0x05, 0x4B, 0x46, 0x7F, 0xFF, 0x0C, 0x10, 0x1C]

/-- The reset state with the given inputs. -/
def withInputs (inputs : List HostInput) : State := { State.reset with inputs := inputs }

/-- The reset state with the given buffer. -/
def withBuf (b : Scratchpad) : State := { State.reset with buf := b }

/-- A state with a found address. -/
def withFound (a : Address) : State := { State.reset with rom := a, fd := true, phase := .exhausted }

/-- The reset state on the given bus. -/
def onBus (env : BusEnv) : State := { State.reset with port := { env := env, log := [] } }

/-- The scanner after its last pass. -/
def exhausted : State := { State.reset with phase := .exhausted }

/-- The state an outcome leads to. -/
def nextState : Host.Outcome State Fault Refusal → Option State
  | .next s => some s
  | .fault _ => none
  | .refused _ => none

/-- Eight ignored write answers, and 64 positions that agree on 0. -/
def eight : List Bool := List.replicate 8 false
def sixtyFour : List (Bool × Bool × Bool) := List.replicate 64 (false, true, false)

/-! ## One step of each operation -/

theorem test_nop_answers_ok : (nextState (exec .nop exhausted)).map (·.resp) = some (some 0x0000) := by decide

theorem test_crcclr_clears :
    (nextState (exec .crcclr { State.reset with crc := 0xA2 })).map (fun t => (t.crc, t.resp)) =
      some (0x00, some 0x0000) := by decide

/-- Section 3.1, rows 1 and 3. -/
theorem test_crcupd_from_zero :
    (nextState (exec (.crcupd 0x01) State.reset)).map (fun t => (t.crc, t.resp)) = some (0x5E, some 0x005E) := by
  decide +kernel
theorem test_crcupd_from_bc :
    (nextState (exec (.crcupd 0x1C) { State.reset with crc := 0xBC })).map (·.crc) = some 0xAF := by decide +kernel

/-- Section 7, codes 2 and 6. -/
theorem test_chka_rejects_flipped_checksum :
    (nextState (exec .chka (withFound #v[0x28, 0x01, 0, 0, 0, 0, 0, 0xA9]))).map (·.resp) = some (some 0x0229) := by
  decide +kernel
theorem test_chka_needs_an_address : (nextState (exec .chka State.reset)).map (·.resp) = some (some 0x0600) := by
  decide +kernel

/-- Section 8, P3 row 10 and P4 row 2. -/
theorem test_chks_passes :
    (nextState (exec .chks (withBuf pad85))).map (fun t => (t.ck, t.resp)) = some (true, some 0x001C) := by
  decide +kernel
theorem test_chks_fails :
    (nextState (exec .chks (withBuf padBad))).map (fun t => (t.ck, t.resp)) = some (false, some 0x045F) := by
  decide +kernel

theorem test_srst_clears_the_cursor :
    (nextState (exec .srst { State.reset with phase := .searching, lastd := 9, fd := true })).map
      (fun t => (t.phase, t.lastd, t.fd)) = some (.idle, 0, false) := by decide

/-- Section 8, P2 row 2 and P6 row 2. -/
theorem test_next_finds_the_smallest_key :
    (nextState (exec .next (onBus (.reference (WB.initial [dev1, dev2, dev3]))))).map
      (fun t => (t.rom, t.lastd, t.resp)) = some (dev3, 4, some 0x0010) := by decide +kernel
theorem test_next_on_an_empty_bus :
    (nextState (exec .next State.reset)).map (fun t => (t.phase, t.resp, t.port.log)) =
      some (.exhausted, some 0x0100, [.reset false]) := by decide +kernel

/-- Section 8, P5 row 10 (85.00 is P3 row 11). -/
theorem test_decode_negative :
    (nextState (exec (.decode 0x10) (withBuf padNeg))).map (fun t => (t.ng, t.frac, t.tlen, t.tstr)) =
      some (true, 12, 5, #v[0x2D, 0x30, 0x2E, 0x31, 0x32, 0, 0, 0]) := by decide +kernel
theorem test_decode_unsupported :
    (nextState (exec (.decode 0x22) { withBuf pad85 with ck := true, tlen := 5 })).map
      (fun t => (t.ck, t.tlen, t.resp)) = some (false, 0, some 0x0322) := by decide +kernel

/-- Section 6. -/
theorem test_wrb_writes_its_byte :
    (nextState (exec (.wrb 3 0xAB) State.reset)).map (fun t => (t.buf, t.resp)) =
      some (#v[0, 0, 0, 0xAB, 0, 0, 0, 0, 0], some 0x00AB) := by decide +kernel
theorem test_wrb_last_index :
    (nextState (exec (.wrb 8 0x1C) State.reset)).map (·.buf) = some #v[0, 0, 0, 0, 0, 0, 0, 0, 0x1C] := by
  decide +kernel

/-- Section 6: `WHOLE` = 2048 reads 0x00, 0x08; `STATUS` with `NG` and `CK` reads 0x05. -/
theorem test_rd_whole :
    [0x04, 0x05].map (fun a => memRead { State.reset with whole := 2048 } a) = [some 0x00, some 0x08] := by decide
theorem test_rd_status :
    (nextState (exec (.rd 0x01) { State.reset with ng := true, ck := true })).map (·.resp) = some (some 0x0005) := by
  decide +kernel

/-- Section 4 of spec/30_encoding.md: an illegal word answers 0x0700; the wait takes no word. -/
theorem test_step_illegal :
    (nextState (step (withInputs [.command 0xA000]))).map (fun t => (t.resp, t.inputs)) = some (some 0x0700, []) := by
  decide
theorem test_withFetchWord_runs :
    (nextState (step (State.reset.withFetchWord 16 0x2001))).map (·.crc) = some 0x5E := by decide +kernel

/-! ## Witnesses: the hypotheses of the obligations can be met -/

theorem witness_IllegalWordsAreRefusedWhole :
    (decodeWord 0x8900 = .error .indexOutOfRange ∧ decodeWord 0x9008 = .error .addressUnmapped ∧
      decodeWord 0xFFFF = .error .reservedOpcode ∧ decodeWord 0x6100 = .error .unusedFieldNonzero) ∧
    (withInputs [.command 0xFFFF]).inputs = .command 0xFFFF :: [] ∧ (withInputs [.command 0xFFFF]).stalled = false := by
  decide

theorem witness_OpcodeMapSelectsByMatchAndMask :
    0xA000 ≤ (0xA000 : Word).toNat ∧ 0xA000 ≤ (0xFFFF : Word).toNat := by decide

theorem witness_EveryOperationDrivesOneResponse :
    (Instr.nop ≠ .next ∧ State.reset.stalled = false) ∧
    (nextState (exec .next State.reset)).map (·.stalled) = some false ∧ (0 < 8 ∧ answer 0 0x00 = some 0x0000) ∧ (7 < 8 ∧ answer 7 0xFF = some 0x07FF) := by
  decide +kernel

theorem witness_StepRunsDecodedOperation :
    (withInputs [.command 0x9037]).inputs = .command 0x9037 :: [] ∧ (withInputs [.command 0x9037]).stalled = false ∧
    decodeWord 0x9037 = .ok (.rd 0x37) := by decide

/-- A block that waits for a silent bus, with the given inputs. -/
def waiting (inputs : List HostInput) : State := { withInputs inputs with stalled := true }

theorem witness_StepWaits :
    State.reset.inputs = [] ∧
    ((waiting [.command 0x0000]).inputs = .command 0x0000 :: [] ∧ (waiting [.command 0x0000]).stalled = true) := by
  decide

theorem witness_PowerOnResetFromEveryState :
    (waiting [.powerOnReset]).inputs = .powerOnReset :: [] ∧ (withInputs [.powerOnReset]).inputs = .powerOnReset :: [] :=
  ⟨rfl, rfl⟩

/-- Section 8, P5: the state after the `DECODE` has a nonempty result, and a step from it is a step of a command. -/
def decoded : State :=
  { withBuf padNeg with
    ck := true, ng := true, frac := 12, tlen := 5, tstr := #v[0x2D, 0x30, 0x2E, 0x31, 0x32, 0, 0, 0]
    phase := .searching, lastd := 64, fd := true, inputs := [.command 0x5000] }

theorem witness_EveryStepKeepsInvariants : Inv decoded ∧ ∃ t, step decoded = .next t ∧ t.phase = .idle :=
  ⟨by decide +kernel, _, rfl, rfl⟩

theorem witness_EveryStepKeepsReferenceBus :
    BusInv { onBus (.reference (WB.initial [dev1, dev2])) with inputs := [.busChange (.reference (WB.initial [dev3]))] } ∧
    ∃ t, step { onBus (.reference (WB.initial [dev1, dev2])) with
      inputs := [.busChange (.reference (WB.initial [dev3]))] } = .next t := by
  refine ⟨⟨⟨by decide, trivial⟩, ?_⟩, _, rfl⟩
  intro x hx
  rw [List.mem_singleton] at hx
  subst hx
  exact ⟨by decide, trivial⟩

/-- Each clause's premise is met: an operation that changes the element. -/
theorem witness_ElementsWrittenOnlyByTheirOperations :
    ((nextState (exec (.crcupd 0x01) State.reset)).map (fun t => decide (t.crc ≠ State.reset.crc)) = some true) ∧
    ((nextState (exec .chks State.reset)).map (fun t => decide (t.ck ≠ State.reset.ck)) = some true) ∧
    ((nextState (exec .srst (withFound dev1))).map (fun t => decide (t.fd ≠ (withFound dev1).fd)) = some true) ∧
    ((nextState (exec .srst exhausted)).map (fun t => decide (t.phase ≠ exhausted.phase)) = some true) ∧
    ((nextState (exec .next (onBus (.reference (WB.initial [dev1]))))).map
      (fun t => decide (t.rom ≠ State.reset.rom)) = some true) ∧
    ((nextState (exec (.wrb 8 0x01) State.reset)).map (fun t => decide (t.buf ≠ State.reset.buf)) = some true) ∧
    ((nextState (exec (.decode 0x28) State.reset)).map (fun t => decide (t.tlen ≠ State.reset.tlen)) = some true) ∧
    ((nextState (exec .next State.reset)).map (fun t => decide (t.port ≠ State.reset.port)) = some true) := by
  decide +kernel

theorem witness_BusChangeLeavesTheBlockAlone :
    (withInputs [.busChange (.oracle [])]).inputs = .busChange (.oracle []) :: [] := rfl

theorem witness_ChecksumResidueIsZero : dev1.toList ≠ [] ∧ recordPasses dev1.toList = true := by decide +kernel

theorem witness_ChecksumIsLinear : ([0x01, 0x02] : List Byte).length = ([0xFF, 0x80] : List Byte).length := rfl

theorem witness_SingleBitFlipsFailTheCheck :
    (recordPasses dev1.toList = true ∧ 0 < dev1.toList.length ∧ 7 < dev1.toList.length ∧ 7 < 8) ∧
    (crc8 ((withBuf pad85).buf.toList.take 8) = (withBuf pad85).buf[8] ∧ 0 < 8) ∧
    ((withFound dev1).fd = true ∧ crc8 ((withFound dev1).rom.toList.take 7) = (withFound dev1).rom[7]) := by
  decide +kernel

theorem witness_ZeroRecordsPass :
    ((withFound zeroAddress).fd = true ∧ (withFound zeroAddress).rom = #v[0, 0, 0, 0, 0, 0, 0, 0]) ∧
    State.reset.buf = #v[0, 0, 0, 0, 0, 0, 0, 0, 0] ∧
    ((0x28 : Byte) = State.reset.params.familyA ∨ (0x28 : Byte) = State.reset.params.familyB) := by decide

theorem witness_CrcclrClearsTheRegister :
    ((0x1FFF : Word).toNat / 4096 = 1 ∧ (0x1FFF : Word) ≠ 0x1000) ∧ ∃ t, exec .crcclr exhausted = .next t :=
  ⟨by decide, _, rfl⟩

theorem witness_CrcupdFoldsAndStreams :
    ((0x2F01 : Word).toNat / 4096 = 2 ∧ (0x2F01 : Word).toNat / 256 % 16 ≠ 0) ∧
    .crcclr ∉ [Instr.crcupd 0x31, .nop, .crcupd 0x32] := by decide

theorem witness_ChkaChecksTheAddress :
    State.reset.fd = false ∧
    ((withFound dev1).fd = true ∧ crc8 ((withFound dev1).rom.toList.take 7) = (withFound dev1).rom[7]) ∧
    ((withFound (dev1.set 7 0xA9)).fd = true ∧
      crc8 ((withFound (dev1.set 7 0xA9)).rom.toList.take 7) ≠ (withFound (dev1.set 7 0xA9)).rom[7]) ∧
    ((0x3001 : Word).toNat / 4096 = 3 ∧ (0x3001 : Word) ≠ 0x3000) ∧
    (nextState (exec .chka (withFound dev1))).isSome = true := by decide +kernel

theorem witness_ChksChecksTheScratchpad :
    crc8 ((withBuf pad85).buf.toList.take 8) = (withBuf pad85).buf[8] ∧
    crc8 ((withBuf padBad).buf.toList.take 8) ≠ (withBuf padBad).buf[8] ∧
    ((0x4100 : Word).toNat / 4096 = 4 ∧ (0x4100 : Word) ≠ 0x4000) := by decide +kernel

theorem witness_CheckAndSignFlagsOnlyRecord :
    (nextState (exec .chka (withFound dev1))).map (·.ck) = some true ∧
    (nextState (exec .chks (withBuf padBad))).map (·.ck) = some false ∧
    (nextState (exec (.decode 0x28) (withBuf padNeg))).map (fun t => (t.ck, t.ng)) = some (true, true) ∧
    Instr.rd 0x00 ≠ .rd 0x01 := by decide +kernel

theorem witness_SrstClearsTheCursor :
    ((0x5010 : Word).toNat / 4096 = 5 ∧ (0x5010 : Word) ≠ 0x5000) ∧ ∃ t, exec .srst exhausted = .next t :=
  ⟨by decide, _, rfl⟩

/-- A bus that answers a whole pass with agreeing zeros, and a discrepancy at the last position; `k` is 1 and 64. -/
theorem witness_NextCompletesOnAnyAnswers :
    State.reset.phase ≠ .exhausted ∧ eight.length = 8 ∧
    (sixtyFour.set 63 (false, false, true)).length = 64 ∧
    (∀ q ∈ sixtyFour.set 63 (false, false, true), ¬(q.1 = true ∧ q.2.1 = true)) ∧
    (onBus (.oracle (passAnswers eight (sixtyFour.set 63 (false, false, true)) ++ []))).port.env =
      .oracle (passAnswers eight (sixtyFour.set 63 (false, false, true)) ++ []) ∧
    (1 - 1 < 64 ∧ 1 ≤ 1) ∧ (64 - 1 < 64 ∧ 1 ≤ 64) ∧
    (nextState (exec .next (onBus (.oracle (passAnswers eight (sixtyFour.set 63 (false, false, true))))))).map
      (·.lastd) = some 64 := by decide +kernel

/-- No presence; the pair (1, 1) at the first and at the last position. -/
theorem witness_NextAbortsWhenNoDeviceAnswers :
    (State.reset.phase ≠ .exhausted ∧ (onBus (.oracle (.bit false :: []))).port.env = .oracle (.bit false :: [])) ∧
    eight.length = 8 ∧ ([] : List (Bool × Bool × Bool)).length < 64 ∧ (sixtyFour.take 63).length < 64 ∧
    (∀ q ∈ sixtyFour.take 63, ¬(q.1 = true ∧ q.2.1 = true)) ∧
    (nextState (exec .next (onBus (.oracle
      (passAnswers eight (sixtyFour.take 63) ++ .bit true :: .bit true :: []))))).map (·.resp) = some (some 0x0100) := by
  decide +kernel

theorem witness_ExhaustedIsSticky :
    exhausted.phase = .exhausted ∧ .srst ∉ [Instr.next, .chka, .next] ∧
    (∃ t, step { exhausted with inputs := [.command 0x5000] } = .next t ∧ t.phase ≠ .exhausted) ∧
    (∃ t, step { exhausted with inputs := [.powerOnReset] } = .next t ∧ t.phase ≠ .exhausted) :=
  ⟨rfl, by decide, ⟨_, rfl, by decide⟩, ⟨_, rfl, by decide⟩⟩

/-- The bus falls silent at the first primitive, and at the last of the 201. -/
theorem witness_NextWaitsForASilentBus :
    State.reset.phase ≠ .exhausted ∧ eight.length = 8 ∧ sixtyFour.length = 64 ∧
    (∀ q ∈ sixtyFour, ¬(q.1 = true ∧ q.2.1 = true)) ∧ 0 < 201 ∧ 200 < 201 ∧
    (onBus (.oracle ((passAnswers eight sixtyFour).take 0 ++ .never :: []))).port.env =
      .oracle ((passAnswers eight sixtyFour).take 0 ++ .never :: []) ∧
    (nextState (exec .next (onBus (.oracle ((passAnswers eight sixtyFour).take 200))))).map
      (fun t => (t.stalled, t.port.log.length)) = some (true, 200) ∧
    ((waiting [.command 0x5000]).stalled = true ∧ (waiting [.command 0x5000]).inputs = .command 0x5000 :: []) ∧
    ((waiting [.powerOnReset]).stalled = true ∧ (waiting [.powerOnReset]).inputs = .powerOnReset :: []) ∧
    (nextState (step (waiting [.powerOnReset]))).map (·.stalled) = some false ∧
    (State.reset.stalled = false ∧ State.reset.port.env = .reference (WB.initial [])) := by
  decide +kernel

theorem witness_ScannerStateTable :
    (CursorInv State.reset ∧ State.reset.stalled = false) ∧ (CursorInv exhausted ∧ exhausted.stalled = false) ∧
    (nextState (exec .next State.reset)).map (fun t => (t.stalled, t.phase)) = some (false, .exhausted) ∧
    (nextState (exec .next exhausted)).map (·.stalled) = some false ∧
    (nextState (exec .next (onBus (.reference (WB.initial [dev1]))))).map (fun t => (t.stalled, t.phase)) =
      some (false, .exhausted) ∧
    (nextState (exec .next (onBus (.reference (WB.initial [dev1, dev2]))))).map (fun t => (t.stalled, t.phase)) =
      some (false, .searching) ∧
    (Instr.nop ≠ .srst ∧ Instr.nop ≠ .next ∧ (nextState (exec .nop decoded)).isSome = true) := by decide +kernel

/-- The four ways a `NEXT` ends. -/
theorem witness_NextBusActivity :
    (nextState (exec .next exhausted)).map (fun t => (t.stalled, t.port.log.length)) = some (false, 0) ∧
    (nextState (exec .next State.reset)).map (fun t => (t.stalled, t.port.log.length)) = some (false, 1) ∧
    (nextState (exec .next (onBus (.oracle (passAnswers eight [] ++ [.bit true, .bit true]))))).map
      (fun t => (t.stalled, t.port.log.length)) = some (false, 11) ∧
    (nextState (exec .next (onBus (.oracle (passAnswers eight (sixtyFour.take 63) ++ [.bit true, .bit true]))))).map
      (fun t => (t.stalled, t.port.log.length)) = some (false, 200) ∧
    (nextState (exec .next (onBus (.oracle (passAnswers eight sixtyFour))))).map
      (fun t => (t.stalled, t.port.log.length)) = some (false, 201) ∧
    Instr.srst ≠ .next := by decide +kernel

theorem witness_NextEndsOnReferenceBus :
    State.reset.stalled = false ∧ State.reset.port.env = .reference (WB.initial []) := ⟨rfl, rfl⟩

/-- The three devices in ascending order of the search key, and the empty bus. -/
theorem witness_NextEnumeratesDevicesAscending :
    ((onBus (.reference (WB.initial [dev1, dev2, dev3]))).phase = .idle ∧
      (onBus (.reference (WB.initial [dev1, dev2, dev3]))).lastd = 0 ∧
      (onBus (.reference (WB.initial [dev1, dev2, dev3]))).port.env = .reference (WB.initial [dev1, dev2, dev3]) ∧
      (WB.initial [dev1, dev2, dev3]).devices.Nodup ∧ AscendingByKey [dev3, dev2, dev1] [dev1, dev2, dev3]) ∧
    (0 < [dev3, dev2, dev1].length ∧ 2 < [dev3, dev2, dev1].length ∧ [dev3, dev2, dev1].length < 4 ∧ 1 < 4) ∧
    (State.reset.port.env = .reference (WB.initial []) ∧ (WB.initial []).devices.Nodup ∧ AscendingByKey [] []) := by
  decide +kernel

theorem witness_BusHeldLowLooksLikeADevice :
    State.reset.phase = .idle ∧ State.reset.lastd = 0 ∧ eight.length = 8 ∧ (List.replicate 64 false).length = 64 ∧
    (nextState (exec .next (onBus (.oracle
      (passAnswers eight ((List.replicate 64 false).map fun b => (false, false, b)) ++ []))))).map (·.lastd) = some 64 := by
  decide +kernel

theorem witness_SearchKeyOrdersAddresses : searchKey dev1 = searchKey dev1 ∧ searchKey dev1 ≠ searchKey dev2 := by
  decide +kernel

theorem witness_ReferenceBusPairs : 0 < 64 ∧ 63 < 64 := by decide

theorem witness_FoundFlagMeansAnAddressWasReturned :
    (nextState (exec .next State.reset)).map (fun t => (t.stalled, t.fd)) = some (false, false) ∧
    (nextState (exec .next (onBus (.reference (WB.initial [dev1]))))).map (fun t => (t.stalled, t.fd)) =
      some (false, true) ∧
    (nextState (exec .srst State.reset)).isSome = true ∧ (Instr.chks ≠ .next ∧ Instr.chks ≠ .srst) ∧
    State.reset.fd = false := by decide +kernel

theorem witness_DecodeArithmetic :
    ((0x10 : Byte) = (withBuf padNeg).params.familyA ∨ (0x10 : Byte) = (withBuf padNeg).params.familyB) ∧
    crc8 ((withBuf padNeg).buf.toList.take 8) = (withBuf padNeg).buf[8] ∧
    256 * (withBuf padNeg).buf[1].toNat + (withBuf padNeg).buf[0].toNat = 65534 ∧
    256 * (withBuf pad85).buf[1].toNat + (withBuf pad85).buf[0].toNat = 1360 := by decide +kernel

theorem witness_DecodeStringIsDecimalText :
    ((0x28 : Byte) = (withBuf pad85).params.familyA ∨ (0x28 : Byte) = (withBuf pad85).params.familyB) ∧
    crc8 ((withBuf pad85).buf.toList.take 8) = (withBuf pad85).buf[8] := by decide +kernel

theorem witness_DecodeChecksThenConverts :
    ((0x99 : Byte) ≠ (withBuf padBad).params.familyA ∧ (0x99 : Byte) ≠ (withBuf padBad).params.familyB) ∧
    (((0x28 : Byte) = (withBuf padBad).params.familyA ∨ (0x28 : Byte) = (withBuf padBad).params.familyB) ∧
      crc8 ((withBuf padBad).buf.toList.take 8) ≠ (withBuf padBad).buf[8]) ∧
    crc8 ((withBuf pad85).buf.toList.take 8) = (withBuf pad85).buf[8] ∧
    ((0x7128 : Word).toNat / 4096 = 7 ∧ (0x7128 : Word).toNat / 256 % 16 ≠ 0) := by decide +kernel

theorem witness_DecodeLaws :
    (1 ≤ 1 ∧ 1 ≤ 32767 ∧ 1 ≤ 32767 ∧ 32767 ≤ 32767) ∧ (readingOf 0xFFFF).neg = true ∧ (readingOf 0x8000).neg = true := by
  decide +kernel

/-- Two states that agree on the temperature bytes only, under different family codes. -/
theorem witness_DecodeDependsOnTheTemperatureBytesOnly :
    ((0x28 : Byte) = (withBuf pad85).params.familyA ∨ (0x28 : Byte) = (withBuf pad85).params.familyB) ∧
    ((0x10 : Byte) = decoded.params.familyA ∨ (0x10 : Byte) = decoded.params.familyB) ∧
    crc8 ((withBuf pad85).buf.toList.take 8) = (withBuf pad85).buf[8] ∧
    crc8 (({ decoded with buf := #v[0x50, 0x05, 0, 0, 0, 0, 0, 0, 0xD4] } : State).buf.toList.take 8) = 0xD4 ∧
    (nextState (exec (.decode 0x28) (withBuf pad85))).isSome = true := by decide +kernel

theorem witness_NopOnlyResponds : (0x0FFF : Word).toNat / 4096 = 0 ∧ (0x0FFF : Word) ≠ 0x0000 := by decide

theorem witness_WrbStoresOneByte :
    ((0 : BitVec 4).toNat < 9 ∧ (8 : BitVec 4).toNat < 9) ∧ (9 ≤ (9 : BitVec 4).toNat ∧ 9 ≤ (15 : BitVec 4).toNat) ∧
    (0x8900 ≤ (0x8900 : Word).toNat ∧ (0x8900 : Word).toNat ≤ 0x8FFF) ∧
    (0x8900 ≤ (0x8FFF : Word).toNat ∧ (0x8FFF : Word).toNat ≤ 0x8FFF) ∧
    ((0x27 : Byte) ≠ bufAddr 8 ∧ (0x29 : Byte) ≠ bufAddr 8) ∧
    (nextState (exec (.wrb 8 0x1C) State.reset)).isSome = true := by decide +kernel

theorem witness_RdAnswersTheByte :
    (∀ a ∈ [0x00, 0x07, 0x10, 0x17, 0x20, 0x28, 0x30, 0x37], MappedAddress a) ∧
    (∀ a ∈ [0x08, 0x0F, 0x18, 0x1F, 0x29, 0x2F, 0x38, 0xFF], ¬ MappedAddress a) ∧
    ((0x9102 : Word).toNat / 4096 = 9 ∧ (0x9102 : Word).toNat / 256 % 16 ≠ 0) ∧
    ((0x9008 : Word).toNat / 4096 = 9 ∧ ¬ MappedAddress ((0x9008 : Word).toNat % 256)) := by decide

theorem witness_RegisterMap :
    ¬ MappedAddress (0x08 : Byte).toNat ∧ ¬ MappedAddress (0xFF : Byte).toNat ∧
    memRead State.reset 0x37 = some 0x00 ∧ memRead State.reset 0x38 = none := by decide

theorem witness_WideAndPackedRegistersRead :
    (0x00 : Byte).toNat ≤ 0x07 ∧ (0x07 : Byte).toNat ≤ 0x07 ∧ (nextState (exec (.wrb 8 0x1C) State.reset)).isSome = true := by
  decide +kernel

/-- Each row of the fault table is reached. -/
theorem witness_FaultsWriteExactlyTheirRow :
    (nextState (exec (.rd 0x08) State.reset)).map (·.resp) = some (answer 7 0x00) ∧
    (nextState (exec .next State.reset)).map (fun t => (t.resp, t.stalled)) = some (answer 1 0x00, false) ∧
    (nextState (exec .next exhausted)).map (·.resp) = some (answer 5 0x00) ∧
    (nextState (exec .chka State.reset)).map (·.resp) = some (answer 6 0x00) ∧
    (nextState (exec .chka (withFound (dev1.set 7 0xA9)))).map (·.resp) = some (answer 2 0x29) ∧
    (nextState (exec .chks (withBuf padBad))).map (·.resp) = some (answer 4 0x5F) ∧
    (nextState (exec (.decode 0x28) (withBuf padBad))).map (·.resp) = some (answer 4 0x5F) ∧
    (nextState (exec (.decode 0x22) State.reset)).map (·.resp) = some (answer 3 0x22) := by decide +kernel

theorem witness_FaultPriority :
    decodeWord 0x7128 = .error .unusedFieldNonzero ∧
    (({ withFound (dev1.set 7 0xA9) with fd := false } : State).fd = false ∧
      crc8 ((dev1.set 7 0xA9).toList.take 7) ≠ (dev1.set 7 0xA9)[7]) ∧
    ((0x99 : Byte) ≠ (withBuf padBad).params.familyA ∧ (0x99 : Byte) ≠ (withBuf padBad).params.familyB ∧
      crc8 ((withBuf padBad).buf.toList.take 8) ≠ (withBuf padBad).buf[8]) ∧
    (exhausted.phase = .exhausted ∧ exhausted.port.env = .reference (WB.initial []) ∧ (WB.initial []).devices = []) := by
  decide +kernel

theorem witness_FirstOperationsAfterReset :
    State.reset = { State.reset with port := State.reset.port, params := State.reset.params } ∧
    ((0x10 : Byte) = State.reset.params.familyA ∨ (0x10 : Byte) = State.reset.params.familyB) ∧
    ((0x22 : Byte) ≠ State.reset.params.familyA ∧ (0x22 : Byte) ≠ State.reset.params.familyB) ∧
    MappedAddress (0x37 : Byte).toNat := by decide

end Sys2Proof.Tests
end

/-!
What each operation does, case by case, in the words of the statements: the next state as a record with its response
(spec/40_crc.md R84 to R89, spec/41_scanner.md R104 to R111, spec/42_decoder.md R129, spec/43_access.md R140 to R142).
-/

namespace Sys2Proof.Machine

/-- R64: a response is the state with the answer on the response port. -/
theorem respond_eq (c : OutcomeCode) (d : Byte) (s : State) :
    respond c d s = { s with resp := answer (outcomeBits c).toNat d } := by
  rw [← responseWord_eq_answer]
  rfl

theorem romPasses_iff (s : State) : romPasses s = true ↔ crc8 (s.rom.toList.take 7) = s.rom[7] := beq_iff_eq

theorem spadPasses_iff (s : State) : spadPasses s = true ↔ crc8 (s.buf.toList.take 8) = s.buf[8] := beq_iff_eq

theorem familyKnown_iff (s : State) (fam : Byte) :
    familyKnown s fam = true ↔ fam = s.params.familyA ∨ fam = s.params.familyB := by
  simp [familyKnown]

/-- R42, R141: the write `WRB` makes, by its index. -/
theorem memWrite_bufAddr (s : State) (idx : BitVec 4) (v : Byte) :
    memWrite s (bufAddr idx) v =
      if idx.toNat ≤ 8 then some { s with buf := s.buf.setIfInBounds idx.toNat v } else none := by
  have hiff : (0x20 ≤ 0x20 + idx.toNat ∧ 0x20 + idx.toNat ≤ 0x28) ↔ idx.toNat ≤ 8 := by omega
  simp only [memWrite, bufAddr_toNat, hiff, Nat.add_sub_cancel_left]

/-! ## One equation per case of an operation -/

section Equations

variable {s : State}

theorem exec_nop (s : State) : exec .nop s = .next { s with resp := answer 0 0x00 } :=
  congrArg Host.Outcome.next (respond_eq _ _ _)

theorem exec_crcclr (s : State) : exec .crcclr s = .next { s with crc := 0x00, resp := answer 0 0x00 } :=
  congrArg Host.Outcome.next (respond_eq _ _ _)

theorem exec_crcupd (v : Byte) (s : State) :
    exec (.crcupd v) s = .next { s with crc := crc8Byte s.crc v, resp := answer 0 (crc8Byte s.crc v) } :=
  congrArg Host.Outcome.next (respond_eq _ _ _)

theorem exec_srst (s : State) :
    exec .srst s = .next { s with phase := .idle, lastd := 0, fd := false, resp := answer 0 0x00 } :=
  congrArg Host.Outcome.next (respond_eq _ _ _)

theorem exec_chka_of_not_found (hfd : s.fd = false) :
    exec .chka s = .next { s with ck := false, resp := answer 6 0x00 } := by
  simp [exec, execChka, hfd, respond_eq, outcomeBits, setCk]

theorem exec_chka_of_pass (hfd : s.fd = true) (hc : crc8 (s.rom.toList.take 7) = s.rom[7]) :
    exec .chka s = .next { s with ck := true, resp := answer 0 (crc8 (s.rom.toList.take 7)) } := by
  simp [exec, execChka, hfd, (romPasses_iff s).2 hc, respond_eq, outcomeBits, setCk, romCrc]

theorem exec_chka_of_fail (hfd : s.fd = true) (hc : crc8 (s.rom.toList.take 7) ≠ s.rom[7]) :
    exec .chka s = .next { s with ck := false, resp := answer 2 (crc8 (s.rom.toList.take 7)) } := by
  simp [exec, execChka, hfd, mt (romPasses_iff s).1 hc, respond_eq, outcomeBits, setCk, romCrc]

theorem exec_chks_of_pass (hc : crc8 (s.buf.toList.take 8) = s.buf[8]) :
    exec .chks s = .next { s with ck := true, resp := answer 0 (crc8 (s.buf.toList.take 8)) } := by
  simp [exec, execChks, (spadPasses_iff s).2 hc, respond_eq, outcomeBits, setCk, spadCrc]

theorem exec_chks_of_fail (hc : crc8 (s.buf.toList.take 8) ≠ s.buf[8]) :
    exec .chks s = .next { s with ck := false, resp := answer 4 (crc8 (s.buf.toList.take 8)) } := by
  simp [exec, execChks, mt (spadPasses_iff s).1 hc, respond_eq, outcomeBits, setCk, spadCrc]

theorem exec_decode_of_unsupported {fam : Byte} (hf : ¬(fam = s.params.familyA ∨ fam = s.params.familyB)) :
    exec (.decode fam) s = .next { clearResult s with ck := false, resp := answer 3 fam } := by
  simp [exec, execDecode, mt (familyKnown_iff s fam).1 hf, respond_eq, outcomeBits, setCk, clearResult]

theorem exec_decode_of_fail {fam : Byte} (hf : fam = s.params.familyA ∨ fam = s.params.familyB)
    (hc : crc8 (s.buf.toList.take 8) ≠ s.buf[8]) :
    exec (.decode fam) s =
      .next { clearResult s with ck := false, resp := answer 4 (crc8 (s.buf.toList.take 8)) } := by
  simp [exec, execDecode, (familyKnown_iff s fam).2 hf, mt (spadPasses_iff s).1 hc, respond_eq, outcomeBits, setCk,
    clearResult, spadCrc]

theorem exec_decode_of_pass {fam : Byte} (hf : fam = s.params.familyA ∨ fam = s.params.familyB)
    (hc : crc8 (s.buf.toList.take 8) = s.buf[8]) :
    exec (.decode fam) s = .next { storeReading (readingOf (rawTemp s.buf)) s with
      ck := true, resp := answer 0 (BitVec.ofNat 8 (readingOf (rawTemp s.buf)).text.length) } := by
  simp [exec, execDecode, (familyKnown_iff s fam).2 hf, (spadPasses_iff s).2 hc, respond_eq, outcomeBits, setCk,
    storeReading]

theorem exec_wrb_of_legal {idx : BitVec 4} (v : Byte) (h : idx.toNat ≤ 8) :
    exec (.wrb idx v) s = .next { s with buf := s.buf.setIfInBounds idx.toNat v, resp := answer 0 v } := by
  simp [exec, execWrb, memWrite_bufAddr, h, respond_eq, outcomeBits]

theorem exec_wrb_of_illegal {idx : BitVec 4} (v : Byte) (h : ¬ idx.toNat ≤ 8) :
    exec (.wrb idx v) s = .next { s with resp := answer 7 0x00 } := by
  simp [exec, execWrb, memWrite_bufAddr, h, respond_eq, outcomeBits]

theorem exec_rd_of_mapped {a v : Byte} (h : memRead s a = some v) :
    exec (.rd a) s = .next { s with resp := answer 0 v } := by
  simp [exec, execRd, h, respond_eq, outcomeBits]

theorem exec_rd_of_unmapped {a : Byte} (h : memRead s a = none) :
    exec (.rd a) s = .next { s with resp := answer 7 0x00 } := by
  simp [exec, execRd, h, respond_eq, outcomeBits]

theorem exec_next_of_exhausted (hp : s.phase = .exhausted) :
    exec .next s = .next { s with fd := false, resp := answer 5 0x00 } := by
  simp [exec, execNext, hp, noMorePass, respond_eq, outcomeBits, setFd]

theorem exec_next_of_complete {w : Address} {z : Nat} {q : BusPort} (hp : s.phase ≠ .exhausted)
    (hs : searchPass s.lastd.toNat s.rom s.port = .complete w z q) :
    exec .next s = .next { s with
      phase := phaseAfter z, lastd := BitVec.ofNat 7 z, fd := true, rom := w, resp := answer 0 w[0], port := q } := by
  simp [exec, execNext, hp, hs, completePass, respond_eq, outcomeBits, setRom, setCursor, setPort]

theorem exec_next_of_abort {q : BusPort} (hp : s.phase ≠ .exhausted)
    (hs : searchPass s.lastd.toNat s.rom s.port = .abort q) :
    exec .next s = .next { s with
      phase := .exhausted, lastd := 0, fd := false, resp := answer 1 0x00, port := q } := by
  simp [exec, execNext, hp, hs, abortPass, respond_eq, outcomeBits, setCursor, setPort]

theorem exec_next_of_hung {q : BusPort} (hp : s.phase ≠ .exhausted)
    (hs : searchPass s.lastd.toNat s.rom s.port = .hung q) :
    exec .next s = .next { s with stalled := true, port := q } := by
  simp [exec, execNext, hp, hs, setStalled, setPort]

end Equations

/-! ## The cases of an operation are exhaustive -/

section Cases

variable (s : State)

/-- Everything a `CHKA` can do (R88). -/
theorem exec_chka_cases :
    (s.fd = false ∧ exec .chka s = .next { s with ck := false, resp := answer 6 0x00 }) ∨
    (s.fd = true ∧ crc8 (s.rom.toList.take 7) = s.rom[7] ∧
      exec .chka s = .next { s with ck := true, resp := answer 0 (crc8 (s.rom.toList.take 7)) }) ∨
    (s.fd = true ∧ crc8 (s.rom.toList.take 7) ≠ s.rom[7] ∧
      exec .chka s = .next { s with ck := false, resp := answer 2 (crc8 (s.rom.toList.take 7)) }) := by
  by_cases hfd : s.fd = true
  · by_cases hc : crc8 (s.rom.toList.take 7) = s.rom[7]
    · exact .inr (.inl ⟨hfd, hc, exec_chka_of_pass hfd hc⟩)
    · exact .inr (.inr ⟨hfd, hc, exec_chka_of_fail hfd hc⟩)
  · have hfd : s.fd = false := Bool.eq_false_of_not_eq_true hfd
    exact .inl ⟨hfd, exec_chka_of_not_found hfd⟩

/-- Everything a `CHKS` can do (R89). -/
theorem exec_chks_cases :
    (crc8 (s.buf.toList.take 8) = s.buf[8] ∧
      exec .chks s = .next { s with ck := true, resp := answer 0 (crc8 (s.buf.toList.take 8)) }) ∨
    (crc8 (s.buf.toList.take 8) ≠ s.buf[8] ∧
      exec .chks s = .next { s with ck := false, resp := answer 4 (crc8 (s.buf.toList.take 8)) }) := by
  by_cases hc : crc8 (s.buf.toList.take 8) = s.buf[8]
  · exact .inl ⟨hc, exec_chks_of_pass hc⟩
  · exact .inr ⟨hc, exec_chks_of_fail hc⟩

/-- Everything a `DECODE` can do (R129 to R131). -/
theorem exec_decode_cases (fam : Byte) :
    (¬(fam = s.params.familyA ∨ fam = s.params.familyB) ∧
      exec (.decode fam) s = .next { clearResult s with ck := false, resp := answer 3 fam }) ∨
    ((fam = s.params.familyA ∨ fam = s.params.familyB) ∧ crc8 (s.buf.toList.take 8) ≠ s.buf[8] ∧
      exec (.decode fam) s =
        .next { clearResult s with ck := false, resp := answer 4 (crc8 (s.buf.toList.take 8)) }) ∨
    ((fam = s.params.familyA ∨ fam = s.params.familyB) ∧ crc8 (s.buf.toList.take 8) = s.buf[8] ∧
      exec (.decode fam) s = .next { storeReading (readingOf (rawTemp s.buf)) s with
        ck := true, resp := answer 0 (BitVec.ofNat 8 (readingOf (rawTemp s.buf)).text.length) }) := by
  by_cases hf : fam = s.params.familyA ∨ fam = s.params.familyB
  · by_cases hc : crc8 (s.buf.toList.take 8) = s.buf[8]
    · exact .inr (.inr ⟨hf, hc, exec_decode_of_pass hf hc⟩)
    · exact .inr (.inl ⟨hf, hc, exec_decode_of_fail hf hc⟩)
  · exact .inl ⟨hf, exec_decode_of_unsupported hf⟩

/-- Everything a `WRB` can do (R141, log 15). -/
theorem exec_wrb_cases (idx : BitVec 4) (v : Byte) :
    (idx.toNat ≤ 8 ∧
      exec (.wrb idx v) s = .next { s with buf := s.buf.setIfInBounds idx.toNat v, resp := answer 0 v }) ∨
    (¬ idx.toNat ≤ 8 ∧ exec (.wrb idx v) s = .next { s with resp := answer 7 0x00 }) := by
  by_cases h : idx.toNat ≤ 8
  · exact .inl ⟨h, exec_wrb_of_legal v h⟩
  · exact .inr ⟨h, exec_wrb_of_illegal v h⟩

/-- Everything an `RD` can do (R142, log 15). -/
theorem exec_rd_cases (a : Byte) :
    (∃ v, memRead s a = some v ∧ exec (.rd a) s = .next { s with resp := answer 0 v }) ∨
    (memRead s a = none ∧ exec (.rd a) s = .next { s with resp := answer 7 0x00 }) := by
  rcases h : memRead s a with _ | v
  · exact .inr ⟨rfl, exec_rd_of_unmapped h⟩
  · exact .inl ⟨v, rfl, exec_rd_of_mapped h⟩

end Cases

/-- Only `NEXT` and `SRST` write the scanner's elements, the bus port and the wait ("Written by", 10_state.md). -/
theorem exec_keeps_scanner {i : Instr} {s t : State} (hn : i ≠ .next) (hr : i ≠ .srst) (h : exec i s = .next t) :
    t.phase = s.phase ∧ t.lastd = s.lastd ∧ t.fd = s.fd ∧ t.rom = s.rom ∧ t.port = s.port ∧
      t.stalled = s.stalled := by
  cases i with
  | nop => cases (exec_nop s).symm.trans h; simp
  | crcclr => cases (exec_crcclr s).symm.trans h; simp
  | crcupd v => cases (exec_crcupd v s).symm.trans h; simp
  | next | srst => contradiction
  | chka => rcases exec_chka_cases s with ⟨-, he⟩ | ⟨-, -, he⟩ | ⟨-, -, he⟩ <;> cases he.symm.trans h <;> simp
  | chks => rcases exec_chks_cases s with ⟨-, he⟩ | ⟨-, he⟩ <;> cases he.symm.trans h <;> simp
  | decode fam =>
    rcases exec_decode_cases s fam with ⟨-, he⟩ | ⟨-, -, he⟩ | ⟨-, -, he⟩ <;> cases he.symm.trans h <;> simp
  | wrb idx v => rcases exec_wrb_cases s idx v with ⟨-, he⟩ | ⟨-, he⟩ <;> cases he.symm.trans h <;> simp
  | rd a => rcases exec_rd_cases s a with ⟨v, -, he⟩ | ⟨-, he⟩ <;> cases he.symm.trans h <;> simp

end Sys2Proof.Machine

/-!
The statements about the elements of state (spec/10_state.md R23 to R26, R32, R37).
-/

namespace Sys2Proof.Machine

/-! ## R37: the reset state -/

/-- Settles O9: the reset state is the table of R37 by definition. -/
theorem resetLeavesTheTable : Obligations.ResetLeavesTheTable :=
  ⟨rfl, rfl, rfl, rfl, rfl, rfl, rfl, rfl, rfl, rfl, rfl, rfl⟩

/-! ## R25: the found flag -/

/-- How a `NEXT` that ends leaves the found flag, and with which answer. -/
theorem exec_next_ends {s t : State} (h : exec .next s = .next t) (hst : t.stalled = false) :
    (t.fd = true ∧ t.resp = answer 0 t.rom[0]) ∨
    (t.fd = false ∧ (t.resp = answer 1 0x00 ∨ t.resp = answer 5 0x00)) := by
  obtain ⟨t', ht, hcases⟩ := execNext_cases s
  cases ht.symm.trans h
  rcases hcases with ⟨-, rfl⟩ | ⟨-, w, z, q, -, -, rfl⟩ | ⟨-, q, -, rfl⟩ | ⟨-, q, -, rfl⟩
  · exact .inr ⟨rfl, .inr rfl⟩
  · exact .inl ⟨rfl, rfl⟩
  · exact .inr ⟨rfl, .inl rfl⟩
  · cases hst

/-- Settles O43: `NEXT` by its endings, every other operation by its frame. -/
theorem foundFlagMeansAnAddressWasReturned : Obligations.FoundFlagMeansAnAddressWasReturned := by
  refine ⟨fun s t _ h hst => ?_, fun s t h => ?_, fun i s t hn hr h => ?_, fun s hfd => ?_⟩
  · rcases exec_next_ends h hst with ⟨hfd, hresp⟩ | ⟨hfd, hresp | hresp⟩ <;> simp [hfd, hresp, answer_eq_iff]
  · cases (exec_srst s).symm.trans h
    rfl
  · obtain ⟨-, -, hfd, -⟩ := exec_keeps_scanner hn hr h
    exact hfd
  · exact ⟨_, exec_chka_of_not_found hfd, rfl⟩

/-! ## R23, R32: the packed and the wide registers -/

theorem statusByte_bits (s : State) :
    (statusByte s)[0] = s.ck ∧ (statusByte s)[1] = s.fd ∧ (statusByte s)[2] = s.ng ∧ (statusByte s).toNat < 8 := by
  unfold statusByte
  cases s.ck <;> cases s.fd <;> cases s.ng <;> decide

theorem toNat_zero_append {m n : Nat} (x : BitVec n) : (0#m ++ x).toNat = x.toNat := by
  simp [BitVec.toNat_append]

/-- R32: a 12-bit register is its low byte and its high byte, the high one below 16. -/
theorem toNat_eq_high_low (x : BitVec 12) :
    x.toNat = 256 * (0#4 ++ x.extractLsb' 8 4).toNat + (x.extractLsb' 0 8).toNat ∧
      (0#4 ++ x.extractLsb' 8 4).toNat < 16 := by
  have := x.isLt
  simp only [toNat_zero_append, BitVec.extractLsb'_toNat, Nat.shiftRight_eq_div_pow]
  omega

/-- R42: the addresses 0x00 to 0x07 read neither the buffer nor the response port. -/
theorem memRead_low_of_buf_resp (s : State) (b : Scratchpad) (r : Option Word) {a : Byte} (ha : a.toNat ≤ 0x07) :
    memRead { s with buf := b, resp := r } a = memRead s a := by
  unfold memRead
  interval_cases a.toNat <;> rfl

/-- Settles O55: each byte by what its address reads; a `WRB` writes the buffer and the response only. -/
theorem wideAndPackedRegistersRead : Obligations.WideAndPackedRegistersRead := by
  refine ⟨fun s => ?_, fun s t idx v a ha h => ?_⟩
  · obtain ⟨hwhole, hhigh⟩ := toNat_eq_high_low s.whole
    have hfrac : (0#1 ++ s.frac).toNat = s.frac.toNat := toNat_zero_append s.frac
    have htlen : (0#4 ++ s.tlen).toNat = s.tlen.toNat := toNat_zero_append s.tlen
    exact ⟨_, _, _, _, _, rfl, rfl, rfl, rfl, rfl, hwhole, hhigh, hfrac, hfrac ▸ s.frac.isLt, htlen,
      htlen ▸ s.tlen.isLt, statusByte_bits s⟩
  · rcases exec_wrb_cases s idx v with ⟨-, he⟩ | ⟨-, he⟩ <;> cases he.symm.trans h
    · exact memRead_low_of_buf_resp s _ _ ha
    · exact memRead_low_of_buf_resp s s.buf _ ha

/-! ## R24, R26: the check flag and the sign flag -/

/-- The state with other values of `CK` and `NG`. -/
def State.withFlags (s : State) (ck ng : Bool) : State := { s with ck := ck, ng := ng }

/-- R23: of the register space only `STATUS` shows the flags. -/
theorem memRead_withFlags (s : State) (ck ng : Bool) {a : Byte} (ha : a ≠ 0x01) :
    memRead (s.withFlags ck ng) a = memRead s a := by
  have ha : a.toNat ≠ 1 := fun h => ha (BitVec.eq_of_toNat_eq h)
  unfold memRead
  split
  case h_2 h => exact absurd h ha
  all_goals rfl

/-- R24, R26: with other values of the flags an operation takes the same case and leaves the same state but for the
flags. -/
theorem exec_withFlags {i : Instr} {s t : State} (ck ng : Bool) (hi : i ≠ .rd 0x01) (h : exec i s = .next t) :
    ∃ ck' ng', exec i (s.withFlags ck ng) = .next (t.withFlags ck' ng') := by
  cases i with
  | nop => cases (exec_nop s).symm.trans h; exact ⟨ck, ng, exec_nop _⟩
  | crcclr => cases (exec_crcclr s).symm.trans h; exact ⟨ck, ng, exec_crcclr _⟩
  | crcupd v => cases (exec_crcupd v s).symm.trans h; exact ⟨ck, ng, exec_crcupd v _⟩
  | srst => cases (exec_srst s).symm.trans h; exact ⟨ck, ng, exec_srst _⟩
  | chka =>
    rcases exec_chka_cases s with ⟨hfd, he⟩ | ⟨hfd, hc, he⟩ | ⟨hfd, hc, he⟩ <;> cases he.symm.trans h
    · exact ⟨false, ng, exec_chka_of_not_found hfd⟩
    · exact ⟨true, ng, exec_chka_of_pass hfd hc⟩
    · exact ⟨false, ng, exec_chka_of_fail hfd hc⟩
  | chks =>
    rcases exec_chks_cases s with ⟨hc, he⟩ | ⟨hc, he⟩ <;> cases he.symm.trans h
    · exact ⟨true, ng, exec_chks_of_pass hc⟩
    · exact ⟨false, ng, exec_chks_of_fail hc⟩
  | next =>
    obtain ⟨t', ht, hcases⟩ := execNext_cases s
    cases ht.symm.trans h
    rcases hcases with ⟨hp, rfl⟩ | ⟨hp, w, z, q, hs, -, rfl⟩ | ⟨hp, q, hs, rfl⟩ | ⟨hp, q, hs, rfl⟩
    · exact ⟨ck, ng, exec_next_of_exhausted hp⟩
    · exact ⟨ck, ng, exec_next_of_complete hp hs⟩
    · exact ⟨ck, ng, exec_next_of_abort hp hs⟩
    · exact ⟨ck, ng, exec_next_of_hung hp hs⟩
  | decode fam =>
    rcases exec_decode_cases s fam with ⟨hf, he⟩ | ⟨hf, hc, he⟩ | ⟨hf, hc, he⟩ <;> cases he.symm.trans h
    · exact ⟨false, false, exec_decode_of_unsupported hf⟩
    · exact ⟨false, false, exec_decode_of_fail hf hc⟩
    · exact ⟨true, (readingOf (rawTemp s.buf)).neg, exec_decode_of_pass hf hc⟩
  | wrb idx v =>
    rcases exec_wrb_cases s idx v with ⟨hl, he⟩ | ⟨hl, he⟩ <;> cases he.symm.trans h
    · exact ⟨ck, ng, exec_wrb_of_legal v hl⟩
    · exact ⟨ck, ng, exec_wrb_of_illegal v hl⟩
  | rd a =>
    have hm := memRead_withFlags s ck ng fun ha => hi (congrArg Instr.rd ha)
    rcases exec_rd_cases s a with ⟨v, hv, he⟩ | ⟨hv, he⟩ <;> cases he.symm.trans h
    · exact ⟨ck, ng, exec_rd_of_mapped (hm.trans hv)⟩
    · exact ⟨ck, ng, exec_rd_of_unmapped (hm.trans hv)⟩

/-- R24: `CK` after `CHKA` is the check of the found address. -/
theorem exec_chka_ck {s t : State} (h : exec .chka s = .next t) :
    t.ck = true ↔ s.fd = true ∧ crc8 (s.rom.toList.take 7) = s.rom[7] := by
  rcases exec_chka_cases s with ⟨hfd, he⟩ | ⟨hfd, hc, he⟩ | ⟨hfd, hc, he⟩ <;> cases he.symm.trans h
  · simp [hfd]
  · exact iff_of_true rfl ⟨hfd, hc⟩
  · simp [hc]

/-- R24: `CK` after `CHKS` is the check of the scratchpad. -/
theorem exec_chks_ck {s t : State} (h : exec .chks s = .next t) :
    t.ck = true ↔ crc8 (s.buf.toList.take 8) = s.buf[8] := by
  rcases exec_chks_cases s with ⟨hc, he⟩ | ⟨hc, he⟩ <;> cases he.symm.trans h
  · exact iff_of_true rfl hc
  · simp [hc]

/-- R24, R26: `CK` after `DECODE` is the family test and the check; `NG` is the sign of the raw value when they hold. -/
theorem exec_decode_ck_ng {fam : Byte} {s t : State} (h : exec (.decode fam) s = .next t) :
    (t.ck = true ↔ (fam = s.params.familyA ∨ fam = s.params.familyB) ∧ crc8 (s.buf.toList.take 8) = s.buf[8]) ∧
      t.ng = (t.ck && (s.buf[1] ++ s.buf[0]).msb) := by
  rcases exec_decode_cases s fam with ⟨hf, he⟩ | ⟨hf, hc, he⟩ | ⟨hf, hc, he⟩ <;> cases he.symm.trans h
  · simp [hf]
  · simp [hc]
  · exact ⟨iff_of_true rfl ⟨hf, hc⟩, (BitVec.msb_eq_getLsbD_last _).symm⟩

/-- Settles O29: the flags operation by operation, and noninterference by the case each operation takes. -/
theorem checkAndSignFlagsOnlyRecord : Obligations.CheckAndSignFlagsOnlyRecord := by
  refine ⟨fun s t => exec_chka_ck, fun s t => exec_chks_ck, fun fam s t => exec_decode_ck_ng, fun i s ck ng hi => ?_⟩
  obtain ⟨t, h⟩ := exec_answers_next i s
  obtain ⟨ck', ng', h'⟩ := exec_withFlags ck ng hi h
  exact ⟨t, _, h, h', rfl⟩

end Sys2Proof.Machine

/-!
The statement about the register address space (spec/20_memory.md R41, R42).
-/

namespace Sys2Proof.Machine

/-! ## R41: the rows of single registers -/

theorem statusByte_eq_ofNat (s : State) :
    statusByte s = BitVec.ofNat 8 (s.ck.toNat + 2 * s.fd.toNat + 4 * s.ng.toNat) := by
  unfold statusByte
  cases s.ck <;> cases s.fd <;> cases s.ng <;> rfl

/-- A register with zeros above it is its zero extension. -/
theorem zero_append_eq_setWidth {m n : Nat} (x : BitVec n) : 0#m ++ x = x.setWidth (m + n) := by
  simp [BitVec.setWidth_eq_append]

/-- R32: the low byte of `WHOLE` in numbers. -/
theorem lowByte_eq_ofNat (x : BitVec 12) : x.extractLsb' 0 8 = BitVec.ofNat 8 (x.toNat % 256) := by
  obtain ⟨hx, -⟩ := toNat_eq_high_low x
  exact BitVec.eq_of_toNat_eq (by rw [BitVec.toNat_ofNat]; omega)

/-- R32: the high byte of `WHOLE` in numbers. -/
theorem highByte_eq_ofNat (x : BitVec 12) : 0#4 ++ x.extractLsb' 8 4 = BitVec.ofNat 8 (x.toNat / 256) := by
  obtain ⟨hx, hhigh⟩ := toNat_eq_high_low x
  exact BitVec.eq_of_toNat_eq (by rw [BitVec.toNat_ofNat]; omega)

/-! ## R41: the rows of byte arrays -/

/-- Above the single registers a read goes by the three ranges of the map. -/
theorem memRead_of_high (s : State) {a : Byte} (h : 0x08 ≤ a.toNat) :
    memRead s a =
      if 0x10 ≤ a.toNat ∧ a.toNat ≤ 0x17 then s.rom[a.toNat - 0x10]?
      else if 0x20 ≤ a.toNat ∧ a.toNat ≤ 0x28 then s.buf[a.toNat - 0x20]?
      else if 0x30 ≤ a.toNat ∧ a.toNat ≤ 0x37 then s.tstr[a.toNat - 0x30]?
      else none := by
  unfold memRead
  split
  case h_9 => rfl
  all_goals omega

theorem memRead_rom (s : State) (i : Fin 8) : memRead s (BitVec.ofNat 8 (0x10 + i.val)) = some s.rom[i] := by
  have ha : (BitVec.ofNat 8 (0x10 + i.val)).toNat = 0x10 + i.val := Nat.mod_eq_of_lt (by omega)
  rw [memRead_of_high s (by omega), ha, if_pos (by omega), Nat.add_sub_cancel_left]
  exact Vector.getElem?_eq_getElem i.isLt

theorem memRead_buf (s : State) (i : Fin 9) : memRead s (BitVec.ofNat 8 (0x20 + i.val)) = some s.buf[i] := by
  have ha : (BitVec.ofNat 8 (0x20 + i.val)).toNat = 0x20 + i.val := Nat.mod_eq_of_lt (by omega)
  rw [memRead_of_high s (by omega), ha, if_neg (by omega), if_pos (by omega), Nat.add_sub_cancel_left]
  exact Vector.getElem?_eq_getElem i.isLt

theorem memRead_tstr (s : State) (i : Fin 8) : memRead s (BitVec.ofNat 8 (0x30 + i.val)) = some s.tstr[i] := by
  have ha : (BitVec.ofNat 8 (0x30 + i.val)).toNat = 0x30 + i.val := Nat.mod_eq_of_lt (by omega)
  rw [memRead_of_high s (by omega), ha, if_neg (by omega), if_neg (by omega), if_pos (by omega),
    Nat.add_sub_cancel_left]
  exact Vector.getElem?_eq_getElem i.isLt

/-! ## R41: every other address -/

theorem memRead_eq_none_of_unmapped (s : State) {a : Byte} (h : ¬ MappedAddress a.toNat) : memRead s a = none :=
  Option.not_isSome_iff_eq_none.1 (mt (memRead_isSome_iff s a).1 h)

/-- Settles O53: the map row by row, the addresses outside it, and `RD` by whether its address has a value. -/
theorem registerMap : Obligations.RegisterMap := by
  intro s
  refine ⟨rfl, congrArg some (statusByte_eq_ofNat s), ?phase, congrArg some (zero_append_eq_setWidth s.lastd),
    congrArg some (lowByte_eq_ofNat s.whole), congrArg some (highByte_eq_ofNat s.whole),
    congrArg some (zero_append_eq_setWidth s.frac), congrArg some (zero_append_eq_setWidth s.tlen),
    memRead_rom s, memRead_buf s, memRead_tstr s,
    fun _ => memRead_eq_none_of_unmapped s, fun _ _ => exec_rd_of_mapped, fun _ => exec_rd_of_unmapped⟩
  case phase =>
    have hread : memRead s 0x02 = some (0#6 ++ phaseCode s.phase) := rfl
    rw [hread]
    cases s.phase <;> rfl

end Sys2Proof.Machine

/-!
The statements about the encoding (spec/30_encoding.md R60 to R68): the decoder by the words it accepts and by the words it
refuses, and the response word.
-/

namespace Sys2Proof.Machine

/-! ## R63: the words of an operation -/

theorem packWord_eq_iff {w : Word} {o a : BitVec 4} {d : Byte} :
    packWord o a d = w ↔ opcField w = o ∧ aField w = a ∧ dField w = d := by
  constructor
  · rintro rfl
    simp
  · rintro ⟨rfl, rfl, rfl⟩
    exact packWord_fields w

/-- R68: what the decoder accepts is a legal operation, and the word is that operation's. -/
theorem wellFormed_and_encode_of_decodeWord {w : Word} {i : Instr} (h : decodeWord w = .ok i) :
    i.WellFormed ∧ encode i = w := by
  have opc {o : BitVec 4} (ho : (opcField w).toNat = o.toNat) : opcField w = o := BitVec.eq_of_toNat_eq ho
  unfold decodeWord at h
  split at h
  case h_3 ho | h_8 ho =>
    obtain ⟨ha, rfl⟩ := decodeFI_ok.1 h
    exact ⟨rfl, packWord_eq_iff.2 ⟨opc ho, ha, rfl⟩⟩
  case h_9 ho =>
    obtain ⟨hidx, rfl⟩ := decodeWrb_ok.1 h
    exact ⟨hidx, packWord_eq_iff.2 ⟨opc ho, rfl, rfl⟩⟩
  case h_10 ho =>
    obtain ⟨ha, hmapped, rfl⟩ := decodeRd_ok.1 h
    exact ⟨hmapped, packWord_eq_iff.2 ⟨opc ho, ha, rfl⟩⟩
  case h_11 => cases h
  all_goals
    rename_i ho
    obtain ⟨ha, hd, rfl⟩ := decodeF0_ok.1 h
    exact ⟨rfl, packWord_eq_iff.2 ⟨opc ho, ha, hd⟩⟩

/-- R68: the decoder accepts the word of every legal operation. -/
theorem decodeWord_encode {i : Instr} (h : i.WellFormed) : decodeWord (encode i) = .ok i := by
  cases i with
  | nop | crcclr | chka | chks | srst | next => rfl
  | crcupd v | decode v => simp [decodeWord, encode, decodeFI]
  | wrb idx v =>
    have hidx : idxLegal idx = true := h
    simp [decodeWord, encode, decodeWrb, hidx]
  | rd a =>
    have hmapped : addrMapped a = true := h
    simp [decodeWord, encode, decodeRd, hmapped]

theorem decodeWord_eq_ok_iff {w : Word} {i : Instr} : decodeWord w = .ok i ↔ i.WellFormed ∧ encode i = w := by
  refine ⟨wellFormed_and_encode_of_decodeWord, ?_⟩
  rintro ⟨hwf, rfl⟩
  exact decodeWord_encode hwf

/-! ## R63: selection by match and mask -/

theorem encode_matches_row : ∀ i, Laws.MatchMask.Statement i
  | .nop => Laws.MatchMask.nop
  | .crcclr => Laws.MatchMask.crcclr
  | .crcupd v => Laws.MatchMask.crcupd v
  | .chka => Laws.MatchMask.chka
  | .chks => Laws.MatchMask.chks
  | .srst => Laws.MatchMask.srst
  | .next => Laws.MatchMask.next
  | .decode v => Laws.MatchMask.decode v
  | .wrb idx v => Laws.MatchMask.wrb idx v
  | .rd a => Laws.MatchMask.rd a

/-- A word is what it is under a mask and what it is outside it. -/
theorem eq_of_and_mask_eq {n : Nat} {x y m : BitVec n} (hin : x &&& m = y &&& m) (hout : x &&& ~~~m = y &&& ~~~m) :
    x = y :=
  calc x = (x &&& m) ||| (x &&& ~~~m) := by rw [← BitVec.and_or_distrib_left]; simp
    _ = (y &&& m) ||| (y &&& ~~~m) := by rw [hin, hout]
    _ = y := by rw [← BitVec.and_or_distrib_left]; simp

/-- R63: a word is an operation's exactly when it is the row's match under the row's mask and has the operand outside. -/
theorem encode_eq_iff_mask {i : Instr} {w : Word} :
    encode i = w ↔ w &&& Laws.rowMask i = Laws.rowMatch i ∧ (w &&& ~~~Laws.rowMask i).toNat = Laws.operandBits i := by
  obtain ⟨hmatch, hoperand⟩ := encode_matches_row i
  constructor
  · rintro rfl
    exact ⟨hmatch, hoperand⟩
  · rintro ⟨hin, hout⟩
    exact eq_of_and_mask_eq (hmatch.trans hin.symm) (BitVec.eq_of_toNat_eq (hoperand.trans hout.symm))

/-- The bits below bit `k` are the remainder by `2 ^ k`. -/
theorem toNat_and_lowMask (w : Word) {m : Word} {k : Nat} (hm : m.toNat = 2 ^ k - 1) :
    (w &&& m).toNat = w.toNat % 2 ^ k := by
  rw [BitVec.toNat_and, hm, Nat.and_two_pow_sub_one_eq_mod]

section Rows

variable {w : Word} {i : Instr}

/-- R63, the rows of format F0: the mask is the whole word. -/
theorem decodeWord_eq_ok_iff_of_wordMask (hmask : Laws.rowMask i = 0xFFFF) (hoperand : Laws.operandBits i = 0)
    (hwf : i.WellFormed) : decodeWord w = .ok i ↔ w &&& 0xFFFF = Laws.rowMatch i := by
  have hout : (w &&& ~~~0xFFFF).toNat = 0 := toNat_and_lowMask w (k := 0) rfl |>.trans (Nat.mod_one _)
  rw [decodeWord_eq_ok_iff, encode_eq_iff_mask, hmask, hoperand]
  exact ⟨fun h => h.2.1, fun h => ⟨hwf, h, hout⟩⟩

/-- R63, the rows of format FI: the mask is `opc` and `a`, the operand is the byte `d`. -/
theorem decodeWord_eq_ok_iff_of_byteMask {v : Byte} (hmask : Laws.rowMask i = 0xFF00)
    (hoperand : Laws.operandBits i = v.toNat) :
    decodeWord w = .ok i ↔ (w &&& 0xFF00 = Laws.rowMatch i ∧ v.toNat = w.toNat % 256) ∧ i.WellFormed := by
  have hout : (w &&& ~~~0xFF00).toNat = w.toNat % 256 := toNat_and_lowMask w (k := 8) rfl
  rw [decodeWord_eq_ok_iff, encode_eq_iff_mask, hmask, hoperand, hout, and_comm, eq_comm (a := v.toNat)]

/-- R63, the row of format FX: the mask is `opc`, the operands are the index `a` and the byte `d`. -/
theorem decodeWord_eq_wrb_iff {idx : BitVec 4} {v : Byte} :
    decodeWord w = .ok (.wrb idx v) ↔
      w &&& 0xF000 = 0x8000 ∧ idx.toNat = w.toNat / 256 % 16 ∧ v.toNat = w.toNat % 256 ∧ idx.toNat ≤ 8 := by
  have hout : (w &&& ~~~0xF000).toNat = w.toNat % 4096 := toNat_and_lowMask w (k := 12) rfl
  have hwf : (Instr.wrb idx v).WellFormed ↔ idx.toNat < 9 := idxLegal_iff idx
  have hfields : w.toNat % 4096 = 256 * idx.toNat + v.toNat ↔
      idx.toNat = w.toNat / 256 % 16 ∧ v.toNat = w.toNat % 256 := by
    have := idx.isLt
    have := v.isLt
    omega
  rw [decodeWord_eq_ok_iff, encode_eq_iff_mask, hwf, Laws.rowMask, Laws.rowMatch, Laws.operandBits, hout, hfields,
    Nat.lt_succ_iff, and_comm, and_assoc, and_assoc]

theorem decodeWord_eq_rd_iff {a : Byte} :
    decodeWord w = .ok (.rd a) ↔ w &&& 0xFF00 = 0x9000 ∧ a.toNat = w.toNat % 256 ∧ MappedAddress a.toNat := by
  have hwf : (Instr.rd a).WellFormed ↔ MappedAddress a.toNat := addrMapped_iff a
  rw [decodeWord_eq_ok_iff_of_byteMask (v := a) rfl rfl, hwf, and_assoc]
  rfl

end Rows

/-! ## R66: the illegal words -/

section Refusals

variable {w : Word}

/-- A format's check: it refuses exactly when its condition fails. -/
theorem ite_ok_error_iff {α ε : Type} {p : Prop} [Decidable p] {a : α} {e : ε} :
    (∃ e', (if p then Except.ok a else Except.error e) = .error e') ↔ ¬p := by
  by_cases h : p <;> simp [h]

theorem aField_eq_zero_iff : aField w = 0 ↔ w.toNat / 256 % 16 = 0 := by
  rw [BitVec.toNat_eq, aField_toNat]
  rfl

theorem dField_eq_zero_iff : dField w = 0 ↔ w.toNat % 256 = 0 := by
  rw [BitVec.toNat_eq, dField_toNat]
  rfl

theorem decodeF0_error_iff {i : Instr} : (∃ e, decodeF0 w i = .error e) ↔ w.toNat % 4096 ≠ 0 := by
  unfold decodeF0
  rw [ite_ok_error_iff, aField_eq_zero_iff, dField_eq_zero_iff]
  omega

theorem decodeFI_error_iff {i : Byte → Instr} : (∃ e, decodeFI w i = .error e) ↔ w.toNat / 256 % 16 ≠ 0 := by
  unfold decodeFI
  rw [ite_ok_error_iff, aField_eq_zero_iff]

theorem decodeWrb_error_iff : (∃ e, decodeWrb w = .error e) ↔ 8 < w.toNat / 256 % 16 := by
  unfold decodeWrb
  rw [ite_ok_error_iff, idxLegal_iff, aField_toNat]
  omega

theorem decodeRd_error_iff :
    (∃ e, decodeRd w = .error e) ↔ w.toNat / 256 % 16 ≠ 0 ∨ ¬ MappedAddress (w.toNat % 256) := by
  have ha : aField w ≠ 0 ↔ w.toNat / 256 % 16 ≠ 0 := not_congr aField_eq_zero_iff
  unfold decodeRd
  split <;> rename_i h <;> rw [ha] at h
  · exact iff_of_true ⟨_, rfl⟩ (.inl h)
  · rw [ite_ok_error_iff, addrMapped_iff, dField_toNat, or_iff_right h]

/-- R66: the numbers of the illegal words. -/
def IllegalNumber (n : Nat) : Prop :=
  10 ≤ n / 4096 ∨
  (n / 4096 ∈ [0, 1, 3, 4, 5, 6] ∧ n % 4096 ≠ 0) ∨
  (n / 4096 ∈ [2, 7, 9] ∧ n / 256 % 16 ≠ 0) ∨
  (n / 4096 = 8 ∧ 8 < n / 256 % 16) ∨
  (n / 4096 = 9 ∧ ¬ MappedAddress (n % 256))

/-- R66, R68: the decoder refuses a word exactly when its number is illegal. -/
theorem decodeWord_error_iff : (∃ e, decodeWord w = .error e) ↔ IllegalNumber w.toNat := by
  unfold decodeWord
  rw [opcField_toNat]
  split <;> rename_i ho
  case h_3 | h_8 => simp [decodeFI_error_iff, IllegalNumber, ho]
  case h_9 => simp [decodeWrb_error_iff, IllegalNumber, ho]
  case h_10 => rw [decodeRd_error_iff]; simp [IllegalNumber, ho]
  case h_11 =>
    have hreserved : 10 ≤ w.toNat / 4096 := by grind
    exact iff_of_true ⟨_, rfl⟩ (.inl hreserved)
  all_goals simp [decodeF0_error_iff, IllegalNumber, ho]

end Refusals

/-! ## R66: the number of legal words -/

/-- R66: how many words below `n` are legal. -/
def legalBelow (n : Nat) : Nat := Nat.count (fun n => (decodeTableWord 16 n).isSome = true) n

theorem decodeTableWord_isSome_iff {n : Nat} (h : n < 65536) :
    (decodeTableWord 16 n).isSome = true ↔ ¬ IllegalNumber n := by
  have hn : (tableWord 16 n).toNat = n := by
    rw [tableWord, BitVec.toNat_ofNat]
    omega
  have hiff : (∃ e, decodeWord (tableWord 16 n) = .error e) ↔ IllegalNumber n := by rw [decodeWord_error_iff, hn]
  rw [← hiff]
  rcases hd : decodeWord (tableWord 16 n) <;> simp [decodeTableWord, hd]

/-- A block of `n` numbers adds as many as are legal in it. -/
theorem legalBelow_add {a n : Nat} (p : Nat → Prop) [DecidablePred p] (hn : a + n ≤ 65536)
    (h : ∀ k < n, ¬ IllegalNumber (a + k) ↔ p k) : legalBelow (a + n) = legalBelow a + Nat.count p n := by
  have hblock : Nat.count (fun k => (decodeTableWord 16 (a + k)).isSome = true) n = Nat.count p n :=
    List.countP_congr fun k hk => by
      have hk : k < n := List.mem_range.1 hk
      rw [decide_eq_true_iff, decide_eq_true_iff]
      exact (decodeTableWord_isSome_iff (by omega)).trans (h k hk)
  rw [legalBelow, Nat.count_add, hblock]
  rfl

/-- A predicate that fails from `m` on is counted below `m`. -/
theorem count_eq_count_of_le {p : Nat → Prop} [DecidablePred p] {m n : Nat} (hmn : m ≤ n)
    (h : ∀ k, m ≤ k → ¬ p k) : Nat.count p n = Nat.count p m := by
  obtain ⟨d, rfl⟩ := Nat.exists_eq_add_of_le hmn
  rw [Nat.count_add, Nat.count_of_forall_not fun k _ => h (m + k) (Nat.le_add_right m k), Nat.add_zero]

theorem count_lt_eq {m n : Nat} (hmn : m ≤ n) : Nat.count (· < m) n = m := by
  rw [count_eq_count_of_le hmn fun _ => Nat.not_lt.2, Nat.count_of_forall fun _ => id]

/-- R66: the illegal words of one code, by the bits below the code. -/
theorem illegalNumber_of_code (o : Nat) {k : Nat} (hk : k < 4096) : IllegalNumber (4096 * o + k) ↔
    10 ≤ o ∨ (o ∈ [0, 1, 3, 4, 5, 6] ∧ 1 ≤ k) ∨ (o ∈ [2, 7, 9] ∧ 256 ≤ k) ∨ (o = 8 ∧ 2304 ≤ k) ∨
      (o = 9 ∧ ¬ MappedAddress (k % 256)) := by
  have hcode : (4096 * o + k) / 4096 = o := by omega
  have hF0 : (4096 * o + k) % 4096 ≠ 0 ↔ 1 ≤ k := by omega
  have hFI : (4096 * o + k) / 256 % 16 ≠ 0 ↔ 256 ≤ k := by omega
  have hidx : 8 < (4096 * o + k) / 256 % 16 ↔ 2304 ≤ k := by omega
  have haddr : (4096 * o + k) % 256 = k % 256 := by omega
  rw [IllegalNumber, hcode, hF0, hFI, hidx, haddr]

/-- R66: how many words of one code are legal. -/
def legalOfCode (o : Nat) : Nat :=
  if o ∈ [0, 1, 3, 4, 5, 6] then 1 else if o ∈ [2, 7] then 256 else if o = 8 then 2304 else if o = 9 then 33 else 0

/-- R41, R66: of the words of `RD` the 33 mapped addresses are legal. -/
theorem legalBelow_rd : legalBelow (4096 * 9 + 4096) = legalBelow (4096 * 9) + legalOfCode 9 := by
  have hmapped : Nat.count (fun k => k < 256 ∧ MappedAddress k) 4096 = legalOfCode 9 := by
    rw [count_eq_count_of_le (m := 256) (by decide) fun k hk => by omega]
    decide +kernel
  rw [← hmapped]
  refine legalBelow_add _ (by decide) fun k hk => ?_
  have hrd : IllegalNumber (4096 * 9 + k) ↔ 256 ≤ k ∨ ¬ MappedAddress (k % 256) := by
    simp [illegalNumber_of_code 9 hk]
  rw [hrd]
  omega

/-- R66: the legal words of a code other than that of `RD` are the first ones of the code. -/
theorem legalBelow_code_of_ne_rd {o : Nat} (ho : o < 16) (hrd : o ≠ 9) :
    legalBelow (4096 * o + 4096) = legalBelow (4096 * o) + legalOfCode o := by
  have hle : legalOfCode o ≤ 4096 := by
    unfold legalOfCode
    split_ifs <;> omega
  rw [legalBelow_add (· < legalOfCode o) (by omega) fun k hk => ?_, count_lt_eq hle]
  rw [illegalNumber_of_code o hk]
  unfold legalOfCode
  interval_cases o <;> simp at hrd ⊢

/-- R66: the legal words of the first `n` codes. -/
theorem legalBelow_codes {n : Nat} (hn : n ≤ 16) :
    legalBelow (4096 * n) = ((List.range n).map legalOfCode).sum := by
  induction n with
  | zero => rfl
  | succ o ih =>
    have hcode : legalBelow (4096 * o + 4096) = legalBelow (4096 * o) + legalOfCode o := by
      by_cases hrd : o = 9
      · rw [hrd, legalBelow_rd]
      · exact legalBelow_code_of_ne_rd (by omega) hrd
    rw [Nat.mul_succ, hcode, ih (by omega), List.range_succ]
    simp

/-- Settles O3: the decoder format by format, what a refused word does, and the count code by code. -/
theorem illegalWordsAreRefusedWhole : Obligations.IllegalWordsAreRefusedWhole := by
  refine ⟨fun w => decodeWord_error_iff, fun w e => refusesWord_of_decode_error, ?_⟩
  have hcount : legalBelow 65536 = 2855 := legalBelow_codes (n := 16) le_rfl
  rw [legalBelow, Nat.count, List.countP_eq_length_filter] at hcount
  simpa using hcount

/-- A word of the codes 0xA to 0xF is refused. -/
theorem refusesWord_of_reserved {w : Word} (h : 0xA000 ≤ w.toNat) : RefusesWord w := by
  have hillegal : IllegalNumber w.toNat := .inl (by omega)
  obtain ⟨e, he⟩ := decodeWord_error_iff.2 hillegal
  exact refusesWord_of_decode_error he

/-- Settles O2: row by row from the words the decoder accepts. -/
theorem opcodeMapSelectsByMatchAndMask : Obligations.OpcodeMapSelectsByMatchAndMask := by
  intro w
  refine ⟨?nop, ?crcclr, ?crcupd, ?chka, ?chks, ?srst, ?next, ?decode, fun idx v => decodeWord_eq_wrb_iff,
    fun a => decodeWord_eq_rd_iff, refusesWord_of_reserved⟩
  case crcupd | decode => exact fun v => (decodeWord_eq_ok_iff_of_byteMask rfl rfl).trans (and_iff_left rfl)
  all_goals exact decodeWord_eq_ok_iff_of_wordMask rfl rfl rfl

/-! ## R64: the response -/

/-- Every operation but `NEXT` drives one response and leaves the wait alone. -/
theorem exec_drives_answer {i : Instr} {s t : State} (hn : i ≠ .next) (h : exec i s = .next t) :
    t.stalled = s.stalled ∧ ∃ code data, code < 8 ∧ t.resp = answer code data := by
  cases i with
  | next => contradiction
  | nop => cases (exec_nop s).symm.trans h; exact ⟨rfl, _, _, by decide, rfl⟩
  | crcclr => cases (exec_crcclr s).symm.trans h; exact ⟨rfl, _, _, by decide, rfl⟩
  | crcupd v => cases (exec_crcupd v s).symm.trans h; exact ⟨rfl, _, _, by decide, rfl⟩
  | srst => cases (exec_srst s).symm.trans h; exact ⟨rfl, _, _, by decide, rfl⟩
  | chka =>
    rcases exec_chka_cases s with ⟨-, he⟩ | ⟨-, -, he⟩ | ⟨-, -, he⟩ <;> cases he.symm.trans h <;>
      exact ⟨rfl, _, _, by decide, rfl⟩
  | chks =>
    rcases exec_chks_cases s with ⟨-, he⟩ | ⟨-, he⟩ <;> cases he.symm.trans h <;> exact ⟨rfl, _, _, by decide, rfl⟩
  | decode fam =>
    rcases exec_decode_cases s fam with ⟨-, he⟩ | ⟨-, -, he⟩ | ⟨-, -, he⟩ <;> cases he.symm.trans h <;>
      exact ⟨rfl, _, _, by decide, rfl⟩
  | wrb idx v =>
    rcases exec_wrb_cases s idx v with ⟨-, he⟩ | ⟨-, he⟩ <;> cases he.symm.trans h <;>
      exact ⟨rfl, _, _, by decide, rfl⟩
  | rd a =>
    rcases exec_rd_cases s a with ⟨v, -, he⟩ | ⟨-, he⟩ <;> cases he.symm.trans h <;>
      exact ⟨rfl, _, _, by decide, rfl⟩

/-- R64: the fields of a response word. -/
theorem answer_layout {code : Nat} {data : Byte} {w : Word} (hcode : code < 8) (h : answer code data = some w) :
    w.extractLsb' 11 5 = 0 ∧ (w.extractLsb' 8 3).toNat = code ∧ w.extractLsb' 0 8 = data := by
  have hdata := data.isLt
  have hw : w.toNat = code * 256 + data.toNat := by
    cases h
    rw [BitVec.toNat_ofNat]
    omega
  refine ⟨BitVec.eq_of_toNat_eq ?zeros, ?code, BitVec.eq_of_toNat_eq ?data⟩
  all_goals rw [BitVec.extractLsb'_toNat, Nat.shiftRight_eq_div_pow, hw]
  case zeros =>
    change _ = 0
    omega
  all_goals omega

/-- Settles O6: an operation other than `NEXT` by its cases, `NEXT` by its endings, and the layout in numbers. -/
theorem everyOperationDrivesOneResponse : Obligations.EveryOperationDrivesOneResponse := by
  refine ⟨fun i s hn hs => ?_, fun s t _ h hst => ?_, fun code data w => answer_layout⟩
  · obtain ⟨t, h⟩ := exec_answers_next i s
    obtain ⟨hst, code, data, hcode, hresp⟩ := exec_drives_answer hn h
    exact ⟨t, code, data, h, hst.trans hs, hcode, hresp⟩
  · rcases exec_next_ends h hst with ⟨-, hresp⟩ | ⟨-, hresp | hresp⟩ <;> exact ⟨_, _, by decide, hresp⟩

end Sys2Proof.Machine

/-!
The statements about the checksum unit (spec/40_crc.md R81 to R89): the byte step and the fold, and the three operations
`CRCCLR`, `CHKA` and `CHKS` by the equations of their cases.
-/

namespace Sys2Proof.Machine

/-! ## R81, R82: the byte step and the fold -/

/-- R81: one shift, by the register's lowest bit. -/
theorem crcShift_eq (x : Byte) : crcShift x = if x[0] then (x >>> 1) ^^^ 0x8C else x >>> 1 := by
  rw [crcShift, BitVec.getLsbD_eq_getElem (by decide)]
  rfl

theorem crcShifts_eq_iterate (n : Nat) (c : Byte) : crcShifts n c = crcShift^[n] c := by
  induction n generalizing c with
  | zero => rfl
  | succ n ih => rw [crcShifts, ih, Function.iterate_succ_apply]

/-- Settles O17: the model's shift is the written-out one, and the byte step iterates it eight times. -/
theorem crcByteIsEightShifts : Obligations.CrcByteIsEightShifts := by
  intro c b shift
  have hshift : crcShift = shift := funext crcShift_eq
  rw [crc8Byte, crcShifts_eq_iterate, hshift]
  rfl

/-- R82: one more byte at the end is one more byte step. -/
theorem crc8_append_singleton (s : List Byte) (b : Byte) : crc8 (s ++ [b]) = crc8Byte (crc8 s) b :=
  crcFold_append crcInit s [b]

/-- Settles O19: the fold over a sequence cut before its last byte. -/
theorem checksumFoldsFromZero : Obligations.ChecksumFoldsFromZero :=
  ⟨rfl, crc8_append_singleton⟩

/-! ## R66: the neighbours of a word of format F0 -/

/-- A word of a format F0 code other than the code's one legal word `v` is refused. -/
theorem refusesWord_of_ne_wordF0 {w v : Word} (hF0 : v.toNat / 4096 ∈ [0, 1, 3, 4, 5, 6]) (hv : v.toNat % 4096 = 0)
    (hcode : w.toNat / 4096 = v.toNat / 4096) (hw : w ≠ v) : RefusesWord w := by
  have hunused : w.toNat % 4096 ≠ 0 := fun h => hw (BitVec.eq_of_toNat_eq (by omega))
  have hillegal : IllegalNumber w.toNat := .inr (.inl ⟨hcode ▸ hF0, hunused⟩)
  obtain ⟨e, he⟩ := decodeWord_error_iff.2 hillegal
  exact refusesWord_of_decode_error he

/-! ## R84: `CRCCLR` -/

theorem exec_crcclr_idempotent {s t : State} (h : exec .crcclr s = .next t) : exec .crcclr t = .next t := by
  cases (exec_crcclr s).symm.trans h
  exact exec_crcclr _

/-- Settles O25: the equation of `CRCCLR` gives effect and frame, and a second one writes the same again. -/
theorem crcclrClearsTheRegister : Obligations.CrcclrClearsTheRegister :=
  ⟨exec_crcclr, rfl, fun _ => refusesWord_of_ne_wordF0 (v := 0x1000) (by decide) rfl,
    fun _ _ => exec_crcclr_idempotent⟩

/-! ## R88: `CHKA` -/

/-- R88: `CHKA` writes neither `FD` nor `ROM`, so the second one takes the case of the first. -/
theorem exec_chka_idempotent {s t : State} (h : exec .chka s = .next t) : exec .chka t = .next t := by
  rcases exec_chka_cases s with ⟨hfd, he⟩ | ⟨hfd, hc, he⟩ | ⟨hfd, hc, he⟩ <;> cases he.symm.trans h
  · exact exec_chka_of_not_found hfd
  · exact exec_chka_of_pass hfd hc
  · exact exec_chka_of_fail hfd hc

/-- Settles O27: the three cases of `CHKA`, its word and the refused words beside it, and R88's example. -/
theorem chkaChecksTheAddress : Obligations.ChkaChecksTheAddress := by
  refine ⟨fun s => exec_chka_of_not_found, fun s => exec_chka_of_pass, fun s => exec_chka_of_fail, rfl, fun w => ?word,
    fun s t => exec_chka_idempotent, ?sample⟩
  case word => exact refusesWord_of_ne_wordF0 (v := 0x3000) (by decide) rfl
  case sample => decide +kernel

/-! ## R89: `CHKS` -/

/-- R89: `CHKS` does not write `BUF`, so the second one takes the case of the first. -/
theorem exec_chks_idempotent {s t : State} (h : exec .chks s = .next t) : exec .chks t = .next t := by
  rcases exec_chks_cases s with ⟨hc, he⟩ | ⟨hc, he⟩ <;> cases he.symm.trans h
  · exact exec_chks_of_pass hc
  · exact exec_chks_of_fail hc

/-- Settles O28: the two cases of `CHKS`, its word and the refused words beside it, and R89's examples. -/
theorem chksChecksTheScratchpad : Obligations.ChksChecksTheScratchpad := by
  refine ⟨fun s => exec_chks_of_pass, fun s => exec_chks_of_fail, rfl, fun w => ?word,
    fun s t => exec_chks_idempotent, ?zeros, ?pass, ?flipped⟩
  case word => exact refusesWord_of_ne_wordF0 (v := 0x4000) (by decide) rfl
  case zeros | pass | flipped => decide +kernel

end Sys2Proof.Machine

/-!
The statements about the bus scanner (spec/41_scanner.md R103 to R111): `SRST`, a pass on an oracle that answers it, the
two aborts, the stickiness of EXHAUSTED and the scanner's state machine on every bus.
-/

namespace Sys2Proof.Machine

/-! ## R104: `SRST` -/

theorem exec_srst_idempotent {s t : State} (h : exec .srst s = .next t) : exec .srst t = .next t := by
  cases (exec_srst s).symm.trans h
  exact exec_srst _

/-- Settles O30: the equation of `SRST` gives effect and frame, and after a reset it writes what stands there. -/
theorem srstClearsTheCursor : Obligations.SrstClearsTheCursor :=
  ⟨exec_srst, rfl, fun _ => refusesWord_of_ne_wordF0 (v := 0x5000) (by decide) rfl,
    fun _ _ => exec_srst_idempotent, exec_srst State.reset⟩

/-! ## R109: `LASTD` and `PHASE` after a completed pass -/

section LastZero

variable {z : Nat} (hz : z ≤ 64)

include hz

/-- R28: the register holds every value of `last_zero`. -/
theorem toNat_ofNat_of_lastZero : (BitVec.ofNat 7 z).toNat = z :=
  (BitVec.toNat_ofNat z 7).trans (Nat.mod_eq_of_lt (by omega))

theorem ofNat_eq_zero_iff_of_lastZero : BitVec.ofNat 7 z = 0 ↔ z = 0 := by
  rw [← BitVec.toNat_inj, toNat_ofNat_of_lastZero hz]
  rfl

/-- R109: `PHASE` after a completed pass, by the register instead of `last_zero`. -/
theorem phaseAfter_eq_of_lastd : phaseAfter z = if BitVec.ofNat 7 z = 0 then .exhausted else .searching := by
  simp only [phaseAfter, ofNat_eq_zero_iff_of_lastZero hz]

end LastZero

/-! ## R106 to R110: a pass on an oracle that answers it -/

theorem searchDir_eq_pathDirection (s : State) (i : Nat) (q : Bool × Bool × Bool) :
    searchDir s.lastd.toNat s.rom (i + 1) q.1 q.2.1 = pathDirection s i q := by
  by_cases h : q.1 = q.2.1 <;> simp [searchDir, discrepancyDir, pathDirection, h]

theorem resolvedPositions_eq_pathPositions (s : State) (qs : List (Bool × Bool × Bool)) :
    resolvedPositions s.lastd.toNat s.rom 1 qs = pathPositions s qs :=
  resolvedPositions_eq_mapIdx s qs 0

/-- R108: `z` names the highest discrepancy of `qs` at which the address `a` has the bit 0, or is 0 without one. -/
def NamesLastZero (qs : List (Bool × Bool × Bool)) (a : Address) (z : Nat) : Prop :=
  (z = 0 ∨ ∃ i, ∃ h : i < qs.length, z = i + 1 ∧ qs[i].1 = qs[i].2.1 ∧ addrBit a i = false) ∧
  ∀ i, ∀ h : i < qs.length, qs[i].1 = qs[i].2.1 → addrBit a i = false → i + 1 ≤ z

theorem NamesLastZero.le_length {qs : List (Bool × Bool × Bool)} {a : Address} {z : Nat} (h : NamesLastZero qs a z) :
    z ≤ qs.length := by
  obtain ⟨rfl | ⟨i, hi, rfl, -⟩, -⟩ := h <;> omega

section OracleAnswers

variable {s : State} {ignored : List Bool} {qs : List (Bool × Bool × Bool)} {rest : List BusAnswer}

theorem port_eq_of_env {env : BusEnv} (h : s.port.env = env) : s.port = ⟨env, s.port.log⟩ :=
  congrArg (BusPort.mk · s.port.log) h

/-- A pass whose first positions `qs` are answered, none of them (1, 1): it stands before the next position, its bits
are those of the decision path, and `last_zero` is the highest discrepancy where 0 was taken (R106 to R108). -/
theorem searchPass_of_passAnswers (n : Nat) (hignored : ignored.length = 8) (hn : n + qs.length = 64)
    (hqs : ∀ q ∈ qs, ¬(q.1 = true ∧ q.2.1 = true))
    (henv : s.port.env = .oracle (passAnswers ignored qs ++ rest)) :
    ∃ work z, searchPass s.lastd.toNat s.rom s.port =
        searchBits s.lastd.toNat s.rom n (1 + qs.length) work z
          ⟨.oracle rest, (passEvents (pathPositions s qs)).reverse ++ s.port.log⟩ ∧
      (∀ i, ∀ h : i < qs.length, addrBit work i = pathDirection s i qs[i]) ∧ NamesLastZero qs work z := by
  obtain ⟨work, z, hrun, -, hbit, hzero, hhighest, -⟩ :=
    searchBits_oracle s.lastd.toNat s.rom qs n 1 zeroAddress 0 rest
      ((BusEvent.reset true :: searchCommandEvents).reverse ++ s.port.log) hqs le_rfl (by omega) Nat.one_pos
  simp only [Nat.sub_self, Nat.zero_add, Nat.add_comm 1, searchDir_eq_pathDirection] at hbit hzero hhighest
  refine ⟨work, z, ?run, hbit, hzero.imp_right ?named, fun i hi hpair ht => hhighest i hi hpair (hbit i hi ▸ ht)⟩
  case run =>
    rw [port_eq_of_env henv, passAnswers, List.append_assoc, searchPass_oracle _ _ _ hignored,
      ← show qs.length + n = 64 by omega, hrun, resolvedPositions_eq_pathPositions]
    simp [passEvents]
  case named =>
    rintro ⟨i, hi, hz, hpair, ht⟩
    exact ⟨i, hi, hz, hpair, (hbit i hi).trans ht⟩

/-- R109: all 64 positions answered, the pass completes. -/
theorem searchPass_complete_of_passAnswers (hignored : ignored.length = 8) (hlen : qs.length = 64)
    (hqs : ∀ q ∈ qs, ¬(q.1 = true ∧ q.2.1 = true))
    (henv : s.port.env = .oracle (passAnswers ignored qs ++ rest)) :
    ∃ work z, searchPass s.lastd.toNat s.rom s.port =
        .complete work z ⟨.oracle rest, (passEvents (pathPositions s qs)).reverse ++ s.port.log⟩ ∧
      (∀ i, ∀ h : i < qs.length, addrBit work i = pathDirection s i qs[i]) ∧ NamesLastZero qs work z :=
  searchPass_of_passAnswers 0 hignored (by omega) hqs henv

/-- R110: no presence, the pass is aborted after its reset. -/
theorem searchPass_abort_of_no_presence (henv : s.port.env = .oracle (.bit false :: rest)) :
    searchPass s.lastd.toNat s.rom s.port = .abort ⟨.oracle rest, .reset false :: s.port.log⟩ := by
  rw [port_eq_of_env henv, searchPass, busReset_oracle]

/-- R110: at the pair (1, 1) the loop is aborted after the two reads. -/
theorem searchBits_abort_of_noDevice (lastd : Nat) (rom : Address) (n k : Nat) (work : Address) (z : Nat)
    (rest : List BusAnswer) (log : List BusEvent) :
    searchBits lastd rom (n + 1) k work z ⟨.oracle (.bit true :: .bit true :: rest), log⟩ =
      .abort ⟨.oracle rest, .readBit true :: .readBit true :: log⟩ := by
  simp only [searchBits, busReadBit_oracle, Bool.and_self, if_true]

/-- R110: the pair (1, 1) after the positions `qs`, the pass is aborted there. -/
theorem searchPass_abort_of_noDevice (hignored : ignored.length = 8) (hlen : qs.length < 64)
    (hqs : ∀ q ∈ qs, ¬(q.1 = true ∧ q.2.1 = true))
    (henv : s.port.env = .oracle (passAnswers ignored qs ++ .bit true :: .bit true :: rest)) :
    searchPass s.lastd.toNat s.rom s.port = .abort ⟨.oracle rest,
      (passEvents (pathPositions s qs) ++ [BusEvent.readBit true, BusEvent.readBit true]).reverse ++ s.port.log⟩ := by
  obtain ⟨work, z, hrun, -⟩ := searchPass_of_passAnswers (63 - qs.length + 1) hignored (by omega) hqs henv
  rw [hrun, searchBits_abort_of_noDevice, List.reverse_append]
  rfl

end OracleAnswers

/-- Settles O31: the completed pass on the oracle gives the address and `last_zero`, and the equation of a completed
`NEXT` the next state. -/
theorem nextCompletesOnAnyAnswers : Obligations.NextCompletesOnAnyAnswers := by
  intro s ignored qs rest hphase hignored hlen hqs henv
  obtain ⟨work, z, hpass, hbit, hnames⟩ := searchPass_complete_of_passAnswers hignored hlen hqs henv
  have hz : z ≤ 64 := hlen ▸ hnames.le_length
  have hlastd := toNat_ofNat_of_lastZero hz
  obtain ⟨hzero, hhighest⟩ := hnames
  refine ⟨_, exec_next_of_complete hphase hpass, ?path, ?highest, ?named, ?frame⟩
  case path =>
    rintro (_ | i) h hk
    · omega
    · exact hbit i h
  case highest =>
    rintro (_ | i) h hk hpair hbit0
    · omega
    · exact (hhighest i h hpair hbit0).trans_eq hlastd.symm
  case named =>
    intro hne
    obtain rfl | ⟨i, hi, rfl, hpair, hbit0⟩ := hzero
    · exact absurd rfl hne
    · simp only [hlastd]
      exact ⟨hi, hpair, hbit0⟩
  case frame => simp only [phaseAfter_eq_of_lastd hz]

/-- Settles O32: each abort of a pass on the oracle, by the equation of an aborted `NEXT`. -/
theorem nextAbortsWhenNoDeviceAnswers : Obligations.NextAbortsWhenNoDeviceAnswers :=
  ⟨fun _ _ hphase henv => exec_next_of_abort hphase (searchPass_abort_of_no_presence henv),
    fun _ _ _ _ hphase hignored hlen hqs henv =>
      exec_next_of_abort hphase (searchPass_abort_of_noDevice hignored hlen hqs henv)⟩

/-! ## R111: EXHAUSTED -/

theorem execAll_append {is : List Instr} {s t : State} (js : List Instr) (h : execAll is s = .next t) :
    execAll (is ++ js) s = execAll js t := by
  induction is generalizing s with
  | nil =>
    cases h
    rfl
  | cons i is ih =>
    obtain ⟨s', hs'⟩ := exec_answers_next i s
    simp only [List.cons_append, execAll, hs'] at h ⊢
    exact ih h

theorem execAll_singleton {i : Instr} {s t : State} (h : exec i s = .next t) : execAll [i] s = .next t := by
  simp only [execAll, h]

/-- R111: every operation but `SRST` leaves a scanner in EXHAUSTED there, without bus activity. -/
theorem exec_keeps_exhausted {i : Instr} {s t : State} (hi : i ≠ .srst) (hphase : s.phase = .exhausted)
    (h : exec i s = .next t) : t.phase = .exhausted ∧ t.port = s.port ∧ t.rom = s.rom := by
  by_cases hn : i = .next
  · subst hn
    cases (exec_next_of_exhausted hphase).symm.trans h
    exact ⟨hphase, rfl, rfl⟩
  · obtain ⟨hp, -, -, hrom, hport, -⟩ := exec_keeps_scanner hn hi h
    exact ⟨hp.trans hphase, hport, hrom⟩

theorem execAll_keeps_exhausted {is : List Instr} {s : State} (his : .srst ∉ is) (hphase : s.phase = .exhausted) :
    ∃ t, execAll is s = .next t ∧ t.phase = .exhausted ∧ t.port = s.port ∧ t.rom = s.rom := by
  induction is generalizing s with
  | nil => exact ⟨s, rfl, hphase, rfl, rfl⟩
  | cons i is ih =>
    obtain ⟨hi, his⟩ := List.ne_and_not_mem_of_not_mem_cons his
    obtain ⟨s', hs'⟩ := exec_answers_next i s
    obtain ⟨hp', hport', hrom'⟩ := exec_keeps_exhausted hi.symm hphase hs'
    obtain ⟨t, ht, hp, hport, hrom⟩ := ih his hp'
    exact ⟨t, by simpa only [execAll, hs'] using ht, hp, hport.trans hport', hrom.trans hrom'⟩

/-- R111: a step that leaves EXHAUSTED takes the word of `SRST` or the power-on reset. -/
theorem step_leaves_exhausted {s t : State} (hphase : s.phase = .exhausted) (h : step s = .next t)
    (hleft : t.phase ≠ .exhausted) :
    (∃ rest, s.inputs = .command 0x5000 :: rest) ∨ ∃ rest, s.inputs = .powerOnReset :: rest := by
  rcases step_cases h with rfl | ⟨rest, hin, -⟩ | ⟨env, rest, -, rfl⟩ | ⟨w, rest, i, hin, -, hw, he⟩ |
    ⟨w, rest, e, -, -, -, rfl⟩
  · exact absurd hphase hleft
  · exact .inr ⟨rest, hin⟩
  · exact absurd hphase hleft
  · have hsrst : i = .srst := by
      by_contra hi
      exact hleft (exec_keeps_exhausted (s := { s with inputs := rest }) hi hphase he).1
    subst hsrst
    obtain ⟨-, rfl⟩ := decodeWord_eq_ok_iff.1 hw
    exact .inl ⟨rest, hin⟩
  · exact absurd hphase hleft

/-- Settles O33: the equation of `NEXT` in EXHAUSTED, after any operations that keep it, and the steps that leave it. -/
theorem exhaustedIsSticky : Obligations.ExhaustedIsSticky := by
  refine ⟨fun s => exec_next_of_exhausted, fun is s hphase his => ?sticky, fun s t => step_leaves_exhausted⟩
  case sticky =>
    obtain ⟨t, hrun, hp, hport, hrom⟩ := execAll_keeps_exhausted his hphase
    exact ⟨_, (execAll_append _ hrun).trans (execAll_singleton (exec_next_of_exhausted hp)), hp, hport, hrom, rfl,
      rfl⟩

/-! ## R103: the scanner's state machine -/

/-- Settles O35: `SRST` by its equation, `NEXT` by its endings and what each leaves on the log, and the frame of the
other operations. -/
theorem scannerStateTable : Obligations.ScannerStateTable := by
  refine ⟨exec_srst, fun s t hinv _ h hst => ?next, fun i s t hr hn h => ?others⟩
  case next =>
    obtain ⟨t', ht, hcases⟩ := execNext_cases s
    cases ht.symm.trans h
    rcases hcases with ⟨hp, rfl⟩ | ⟨hp, w, z, q, hs, hz, rfl⟩ | ⟨hp, q, hs, rfl⟩ | ⟨-, q, -, rfl⟩
    · obtain ⟨-, -, hlastd, -⟩ := hinv
      refine .inr (.inr ⟨hp, ?_⟩)
      simp only [← hp, ← hlastd hp]
    · obtain ⟨qs, hlen, hqs, hlog, hdir, rfl⟩ := searchPass_complete hs
      refine .inl ⟨hp, ⟨qs, hlen, hqs, hlog, fun i hi => (hdir i hi).2, toNat_ofNat_of_lastZero hz⟩, ?_⟩
      simp only [phaseAfter_eq_of_lastd hz]
    · exact .inr (.inl ⟨hp, searchPass_abort hs, rfl⟩)
    · cases hst
  case others =>
    obtain ⟨hphase, hlastd, hfd, hrom, -⟩ := exec_keeps_scanner hn hr h
    exact ⟨hphase, hlastd, hrom, hfd⟩

end Sys2Proof.Machine

/-!
The statements about the temperature decoder (spec/42_decoder.md R121 to R131): the raw value as a signed number, the
string as decimal text, and the operation `DECODE` by the equations of its cases.
-/

namespace Sys2Proof.Machine

/-! ## R121 to R124: the arithmetic of the signed raw value -/

/-- R121: the raw value, byte 1 above byte 0. -/
theorem rawTemp_toNat (buf : Scratchpad) : (rawTemp buf).toNat = 256 * buf[1].toNat + buf[0].toNat := by
  have hlow := buf[0].isLt
  rw [rawTemp, BitVec.toNat_append, ← Nat.shiftLeft_add_eq_or_of_lt hlow, Nat.shiftLeft_eq]
  omega

theorem toInt_rawTemp (buf : Scratchpad) :
    (rawTemp buf).toInt = if 256 * buf[1].toNat + buf[0].toNat < 32768
      then (256 * buf[1].toNat + buf[0].toNat : Int)
      else (256 * buf[1].toNat + buf[0].toNat : Int) - 65536 := by
  rw [BitVec.toInt_eq_toNat_cond, rawTemp_toNat]
  split_ifs <;> omega

section Signed

variable (raw : BitVec 16)

/-- R122: the sign bit is the sign of the two's-complement value. -/
theorem negTemp_iff_toInt_neg : negTemp raw = true ↔ raw.toInt < 0 := by
  rw [negTemp_iff, BitVec.toInt_eq_toNat_cond]
  split_ifs <;> omega

/-- R122: the magnitude is the absolute value, that of 0x8000 included. -/
theorem magTemp_eq_natAbs : magTemp raw = raw.toInt.natAbs := by
  rw [magTemp_eq, BitVec.toInt_eq_toNat_cond]
  split_ifs <;> omega

theorem readingOf_whole : (readingOf raw).whole = (magTemp raw * 6 + magTemp raw / 4) / 100 := rfl

theorem readingOf_frac : (readingOf raw).frac = (magTemp raw * 6 + magTemp raw / 4) % 100 := rfl

/-- R124: the fraction has two digits. -/
theorem readingOf_frac_lt : (readingOf raw).frac < 100 := Nat.mod_lt _ (by decide)

end Signed

/-! ## R126, R127: the string as text -/

/-- R127: the character a code stands for. -/
abbrev charOf (c : Byte) : Char := Char.ofNat c.toNat

theorem charOf_digitChar : ∀ j < 10, charOf (digitChar j) = j.digitChar := by decide

/-- R126: the recursion writes the digits of the numeral in base ten. -/
theorem map_charOf_decDigits {fuel n : Nat} (h : n ≤ fuel) : (decDigits fuel n).map charOf = Nat.toDigits 10 n := by
  induction fuel generalizing n with
  | zero =>
    cases Nat.le_zero.1 h
    rfl
  | succ fuel ih =>
    unfold decDigits
    by_cases h10 : n < 10
    · rw [if_pos h10, Nat.toDigits_of_lt_base h10, List.map_singleton, charOf_digitChar n h10]
    · rw [if_neg h10, Nat.toDigits_of_base_le (by decide) (Nat.le_of_not_lt h10), List.map_append, ih (by omega),
        List.map_singleton, charOf_digitChar _ (Nat.mod_lt n (by decide))]

/-- R126: `dec(n)` is the decimal text of `n`. -/
theorem map_charOf_dec (n : Nat) : (dec n).map charOf = (toString n).toList :=
  (map_charOf_decDigits le_rfl).trans String.toList_ofList.symm

/-- R126: `dec2(n)` is the decimal text of `n`, filled to two digits. -/
theorem map_charOf_dec2 {n : Nat} (h : n < 100) :
    (dec2 n).map charOf = (if n < 10 then "0" else "").toList ++ (toString n).toList := by
  have htens : charOf (digitChar (n / 10)) = (n / 10).digitChar := charOf_digitChar _ (by omega)
  have hones : charOf (digitChar (n % 10)) = (n % 10).digitChar := charOf_digitChar _ (by omega)
  rw [← map_charOf_dec, dec, map_charOf_decDigits le_rfl, dec2, List.map_cons, List.map_singleton, htens, hones]
  by_cases h10 : n < 10
  · rw [if_pos h10, Nat.toDigits_of_lt_base h10, Nat.div_eq_of_lt h10, Nat.mod_eq_of_lt h10]
    rfl
  · rw [if_neg h10, Nat.toDigits_of_base_le (by decide) (Nat.le_of_not_lt h10),
      Nat.toDigits_of_lt_base (by omega : n / 10 < 10)]
    rfl

/-- R127: the text of a temperature. -/
def temperatureText (neg : Bool) (whole frac : Nat) : String :=
  (if neg then "-" else "") ++ toString whole ++ "." ++ (if frac < 10 then "0" else "") ++ toString frac

/-- R127: `tstr(neg, whole, frac)` is the text of the temperature. -/
theorem map_charOf_tstrOf (neg : Bool) (whole : Nat) {frac : Nat} (h : frac < 100) :
    (tstrOf neg whole frac).map charOf = (temperatureText neg whole frac).toList := by
  have hsign : (if neg then [charMinus] else []).map charOf = (if neg then "-" else "").toList := by
    cases neg <;> rfl
  have hpoint : [charPoint].map charOf = ".".toList := rfl
  simp only [tstrOf, temperatureText, List.map_append, String.toList_append, hsign, hpoint, map_charOf_dec,
    map_charOf_dec2 h, List.append_assoc]

/-! ## R129: what a successful `DECODE` leaves -/

/-- R31, R129: the result registers of `t` hold the reading `r` exactly. -/
structure HoldsReading (t : State) (r : Reading) : Prop where
  neg : t.ng = r.neg
  whole : t.whole.toNat = r.whole
  frac : t.frac.toNat = r.frac
  tlen : t.tlen.toNat = r.text.length
  tstr : t.tstr.toList = r.text ++ List.replicate (8 - t.tlen.toNat) 0x00

/-- R31: storing the reading of a raw value loses nothing to the widths of the registers. -/
theorem holdsReading_storeReading (raw : BitVec 16) (s : State) :
    HoldsReading (storeReading (readingOf raw) s) (readingOf raw) where
  neg := rfl
  whole := readingOf_whole_toNat raw
  frac := readingOf_frac_toNat raw
  tlen := readingOf_length_toNat raw
  tstr := by
    rw [storeReading_tlen, readingOf_length_toNat]
    exact padText_toList _ (readingOf_text_length raw).2

/-- R129: the length as a response byte is the register `TLEN` widened. -/
theorem ofNat_length_eq_setWidth (raw : BitVec 16) :
    BitVec.ofNat 8 (readingOf raw).text.length = (BitVec.ofNat 4 (readingOf raw).text.length).setWidth 8 := by
  apply BitVec.eq_of_toNat_eq
  rw [BitVec.toNat_setWidth, readingOf_length_toNat, BitVec.toNat_ofNat]

section Decode

variable {s : State} {fam : Byte}

/-- R129: a successful `DECODE` stores the reading of the raw value and writes `CK` and the response besides. -/
theorem exec_decode_holdsReading (hf : fam = s.params.familyA ∨ fam = s.params.familyB)
    (hc : crc8 (s.buf.toList.take 8) = s.buf[8]) :
    ∃ t, exec (.decode fam) s = .next t ∧ HoldsReading t (readingOf (rawTemp s.buf)) ∧
      t = { s with
        ck := true, ng := t.ng, whole := t.whole, frac := t.frac, tlen := t.tlen, tstr := t.tstr,
        resp := answer 0 (t.tlen.setWidth 8) } := by
  obtain ⟨hneg, hwhole, hfrac, htlen, htstr⟩ := holdsReading_storeReading (rawTemp s.buf) s
  refine ⟨_, exec_decode_of_pass hf hc, ⟨hneg, hwhole, hfrac, htlen, htstr⟩, ?_⟩
  rw [ofNat_length_eq_setWidth]
  rfl

/-- R129: `DECODE` writes neither `BUF` nor the family codes, so the second one takes the case of the first. -/
theorem exec_decode_idempotent {t : State} (h : exec (.decode fam) s = .next t) : exec (.decode fam) t = .next t := by
  rcases exec_decode_cases s fam with ⟨hf, he⟩ | ⟨hf, hc, he⟩ | ⟨hf, hc, he⟩ <;> cases he.symm.trans h
  · exact exec_decode_of_unsupported hf
  · exact exec_decode_of_fail hf hc
  · exact exec_decode_of_pass hf hc

end Decode

/-- Settles O44: `raw` as a signed number is the statement's value; the ranges follow from those of the raw value. -/
theorem decodeArithmetic : Obligations.DecodeArithmetic := by
  intro s fam hf hc
  obtain ⟨t, ht, hr, -⟩ := exec_decode_holdsReading hf hc
  refine ⟨t, ht, fun value mag scaled hvalue hmag hscaled => ?_⟩
  have hvalue : value = (rawTemp s.buf).toInt := hvalue.trans (toInt_rawTemp s.buf).symm
  have hmag : mag = magTemp (rawTemp s.buf) := by rw [hmag, hvalue, magTemp_eq_natAbs]
  have hle : mag ≤ 32768 := hmag ▸ magTemp_le _
  have hng : t.ng = true ↔ value < 0 := by rw [hr.neg, hvalue, ← negTemp_iff_toInt_neg]; rfl
  have hwhole : t.whole.toNat = scaled / 100 := by rw [hr.whole, readingOf_whole, hscaled, hmag]
  have hfrac : t.frac.toNat = scaled % 100 := by rw [hr.frac, readingOf_frac, hscaled, hmag]
  rw [hng, hwhole, hfrac]
  omega

/-- Settles O45: the numeral by the digits in base ten, the string by its parts, `TSTR` by the text and its padding. -/
theorem decodeStringIsDecimalText : Obligations.DecodeStringIsDecimalText := by
  refine ⟨map_charOf_dec, fun s fam hf hc => ?_⟩
  obtain ⟨t, ht, hr, -⟩ := exec_decode_holdsReading hf hc
  have htext : (readingOf (rawTemp s.buf)).text.map charOf =
      (temperatureText t.ng t.whole.toNat t.frac.toNat).toList := by
    rw [hr.neg, hr.whole, hr.frac]
    exact map_charOf_tstrOf _ _ (readingOf_frac_lt _)
  have hlen : t.tlen.toNat = (temperatureText t.ng t.whole.toNat t.frac.toNat).length := by
    rw [hr.tlen, ← String.length_toList, ← htext, List.length_map]
  obtain ⟨hmin, hmax⟩ := readingOf_text_length (rawTemp s.buf)
  refine ⟨t, ht, temperatureText t.ng t.whole.toNat t.frac.toNat, rfl, hlen, ?min, ?max, ?tstr⟩
  case min => exact hlen ▸ hr.tlen ▸ hmin
  case max => exact hlen ▸ hr.tlen ▸ hmax
  case tstr =>
    change t.tstr.toList.map charOf = _
    rw [hr.tstr, List.map_append, htext, List.map_replicate, hlen]
    rfl

/-! ## R66: the words of an operation of format FI and their neighbours -/

theorem packWord_eq_ofNat (o : BitVec 4) (v : Byte) : packWord o 0 v = BitVec.ofNat 16 (4096 * o.toNat + v.toNat) := by
  have := o.isLt
  have := v.isLt
  have hzero : (0 : BitVec 4).toNat = 0 := rfl
  apply BitVec.eq_of_toNat_eq
  rw [packWord_toNat, BitVec.toNat_ofNat, hzero]
  omega

/-- A word of a code with an unused field `a` is refused when that field is not zero. -/
theorem refusesWord_of_aField_ne_zero {w : Word} (hcode : w.toNat / 4096 ∈ [2, 7, 9])
    (ha : w.toNat / 256 % 16 ≠ 0) : RefusesWord w := by
  have hillegal : IllegalNumber w.toNat := .inr (.inr (.inl ⟨hcode, ha⟩))
  obtain ⟨e, he⟩ := decodeWord_error_iff.2 hillegal
  exact refusesWord_of_decode_error he

/-- R63: the words of `DECODE`. -/
theorem decodeWord_decode (v : Byte) : decodeWord (BitVec.ofNat 16 (0x7000 + v.toNat)) = .ok (.decode v) :=
  packWord_eq_ofNat 7 v ▸ decodeWord_encode (i := .decode v) rfl

/-- Settles O46: the three cases of `DECODE`, its words and the refused words beside them. -/
theorem decodeChecksThenConverts : Obligations.DecodeChecksThenConverts := by
  refine ⟨fun s fam hA hB => exec_decode_of_unsupported (not_or.2 ⟨hA, hB⟩), fun s fam => exec_decode_of_fail,
    fun s fam hf hc => ?convert, fun s t fam => exec_decode_idempotent, decodeWord_decode, fun w hcode => ?word⟩
  case convert =>
    obtain ⟨t, ht, ⟨hneg, hwhole, hfrac, htlen, htstr⟩, hframe⟩ := exec_decode_holdsReading hf hc
    exact ⟨t, ht, hneg, hwhole, hfrac, htlen, htstr, hframe⟩
  case word => exact refusesWord_of_aField_ne_zero (by simp [hcode])

end Sys2Proof.Machine

/-!
The statements about the host access operations (spec/43_access.md R140 to R142): `NOP`, the register space after a
`WRB`, and the read of `RD`.
-/

namespace Sys2Proof.Machine

/-- R66: a word with an illegal number is refused whole. -/
theorem refusesWord_of_illegalNumber {w : Word} (h : IllegalNumber w.toNat) : RefusesWord w := by
  obtain ⟨e, he⟩ := decodeWord_error_iff.2 h
  exact refusesWord_of_decode_error he

/-! ## R140: `NOP` -/

/-- Settles O50: the equation of `NOP` gives effect and frame; its code has the one word of format F0. -/
theorem nopOnlyResponds : Obligations.NopOnlyResponds :=
  ⟨exec_nop, rfl, fun _ => refusesWord_of_ne_wordF0 (v := 0x0000) (by decide) rfl⟩

/-! ## R141: `WRB` -/

/-- A write inside a vector's bounds. -/
theorem setIfInBounds_eq_set {α : Type} {n i : Nat} (xs : Vector α n) (x : α) (h : i < n) :
    xs.setIfInBounds i x = xs.set i x h := by
  ext j hj
  rw [Vector.getElem_setIfInBounds, Vector.getElem_set]

section Wrb

variable {s t : State} {idx : BitVec 4}

/-- R141: `WRB` with a legal index, as the buffer with that byte written. -/
theorem exec_wrb_set (s : State) (v : Byte) (h : idx.toNat < 9) :
    exec (.wrb idx v) s = .next { s with buf := s.buf.set idx.toNat v h, resp := answer 0 v } := by
  rw [exec_wrb_of_legal v (Nat.le_of_lt_succ h), setIfInBounds_eq_set]

/-- R141: `WRB` does not read the buffer, and the second write of a byte replaces the first one. -/
theorem exec_wrb_idempotent {v : Byte} (h : exec (.wrb idx v) s = .next t) : exec (.wrb idx v) t = .next t := by
  rcases exec_wrb_cases s idx v with ⟨hidx, he⟩ | ⟨hidx, he⟩ <;> cases he.symm.trans h
  · rw [exec_wrb_of_legal v hidx, Vector.setIfInBounds_setIfInBounds]
  · exact exec_wrb_of_illegal v hidx

/-- R41, R42: the address a `WRB` writes reads the byte of that index. -/
theorem memRead_bufAddr (s : State) (h : idx.toNat < 9) : memRead s (bufAddr idx) = some s.buf[idx.toNat] := by
  have ha := bufAddr_toNat idx
  rw [memRead_of_high s (by omega), ha, if_neg (by omega), if_pos (by omega), Nat.add_sub_cancel_left]
  exact Vector.getElem?_eq_getElem h

/-- R41, R42: one byte of the buffer, and the response, are seen at that byte's address only. -/
theorem memRead_setBuf_resp_of_ne (s : State) (v : Byte) (r : Option Word) (h : idx.toNat < 9) {a : Byte}
    (ha : a ≠ bufAddr idx) : memRead { s with buf := s.buf.set idx.toNat v h, resp := r } a = memRead s a := by
  have hne : a.toNat ≠ 0x20 + idx.toNat := bufAddr_toNat idx ▸ mt BitVec.eq_of_toNat_eq ha
  rcases Nat.lt_or_ge 0x07 a.toNat with hhigh | hlow
  · rw [memRead_of_high _ hhigh, memRead_of_high s hhigh]
    refine ite_congr rfl (fun _ => rfl) fun _ => ite_congr rfl (fun hbuf => ?_) fun _ => rfl
    exact Vector.getElem?_set_ne h (by omega)
  · exact memRead_low_of_buf_resp s _ r hlow

/-- R63: the words of `WRB`. -/
theorem decodeWord_wrb {v : Byte} (h : idx.toNat ≤ 8) :
    decodeWord (BitVec.ofNat 16 (0x8000 + 256 * idx.toNat + v.toNat)) = .ok (.wrb idx v) := by
  have hword : encode (.wrb idx v) = BitVec.ofNat 16 (0x8000 + 256 * idx.toNat + v.toNat) := by
    have hopc : (0x8 : BitVec 4).toNat = 8 := rfl
    have := v.isLt
    apply BitVec.eq_of_toNat_eq
    rw [encode, packWord_toNat, hopc, BitVec.toNat_ofNat]
    omega
  exact decodeWord_eq_ok_iff.2 ⟨(idxLegal_iff idx).2 (Nat.lt_succ_of_le h), hword⟩

end Wrb

/-- Settles O51: the equation of `WRB` on both sides of the index 8, its words, and the register space read through the
buffer after the write. -/
theorem wrbStoresOneByte : Obligations.WrbStoresOneByte := by
  refine ⟨fun s idx v => exec_wrb_set s v, fun s idx v h => exec_wrb_of_illegal v (Nat.not_le_of_lt h),
    fun idx v => decodeWord_wrb, fun w hlo hhi => ?word, fun s t idx v hidx h => ?space⟩
  case word =>
    have hcode : w.toNat / 4096 = 8 ∧ 8 < w.toNat / 256 % 16 := by omega
    exact refusesWord_of_illegalNumber (.inr (.inr (.inr (.inl hcode))))
  case space =>
    have hlt : idx.toNat < 9 := Nat.lt_succ_of_le hidx
    refine ⟨?written, fun a => ?others, exec_wrb_idempotent h⟩ <;> cases (exec_wrb_set s v hlt).symm.trans h
    case written => rw [memRead_bufAddr _ hlt, Vector.getElem_set_self]
    case others => exact memRead_setBuf_resp_of_ne s v _ hlt

/-! ## R142: `RD` -/

/-- R63: the words of `RD`. -/
theorem decodeWord_rd {a : Byte} (h : MappedAddress a.toNat) :
    decodeWord (BitVec.ofNat 16 (0x9000 + a.toNat)) = .ok (.rd a) :=
  packWord_eq_ofNat 9 a ▸ decodeWord_encode (i := .rd a) ((addrMapped_iff a).2 h)

/-- Settles O52: `RD` by whether its address is mapped, which says whether the register space holds a byte there. -/
theorem rdAnswersTheByte : Obligations.RdAnswersTheByte := by
  refine ⟨fun s a ha => ?mapped, fun s a ha => ?unmapped, fun a => decodeWord_rd, fun w hcode hw => ?word⟩
  case mapped =>
    obtain ⟨v, hv⟩ := Option.isSome_iff_exists.1 ((memRead_isSome_iff s a).2 ha)
    exact ⟨v, hv, exec_rd_of_mapped hv⟩
  case unmapped =>
    have hnone := memRead_eq_none_of_unmapped s ha
    exact ⟨hnone, exec_rd_of_unmapped hnone⟩
  case word =>
    rcases hw with hunused | hunmapped
    · exact refusesWord_of_aField_ne_zero (by simp [hcode]) hunused
    · exact refusesWord_of_illegalNumber (.inr (.inr (.inr (.inr ⟨hcode, hunmapped⟩))))

end Sys2Proof.Machine

/-!
The statements about the faults (spec/60_exceptions.md R152, R153): the fault table as a relation, and that an operation
that ends answers OK or by a row of it.
-/

namespace Sys2Proof.Machine

/-! ## R152: the state writes of each fault -/

/-- R152, the fault table: `FaultRow s i code t` says that the row of `code` is open to the operation `i`, and that `t`
is `s` with exactly the writes of that row. -/
inductive FaultRow (s : State) : Instr → Nat → State → Prop
  /-- ILLEGAL writes nothing; its row names no operation. -/
  | illegal (i : Instr) : FaultRow s i 7 { s with resp := answer 7 0x00 }
  /-- BUSEMPTY ends the enumeration; the primitives of the aborted pass stay performed, in `q`. -/
  | busEmpty (q : BusPort) : FaultRow s .next 1
      { s with phase := .exhausted, lastd := 0, fd := false, resp := answer 1 0x00, port := q }
  /-- NOMORE drops the found flag. -/
  | noMore : FaultRow s .next 5 { s with fd := false, resp := answer 5 0x00 }
  /-- NODATA drops the check flag. -/
  | noData : FaultRow s .chka 6 { s with ck := false, resp := answer 6 0x00 }
  /-- ADDRCRC drops the check flag and answers the computed checksum. -/
  | addrCrc : FaultRow s .chka 2 { s with ck := false, resp := answer 2 (crc8 (s.rom.toList.take 7)) }
  /-- SPADCRC of `CHKS` drops the check flag and answers the computed checksum. -/
  | spadCrcOfChks : FaultRow s .chks 4 { s with ck := false, resp := answer 4 (crc8 (s.buf.toList.take 8)) }
  /-- SPADCRC of `DECODE` clears the results too. -/
  | spadCrcOfDecode (fam : Byte) : FaultRow s (.decode fam) 4
      { clearResult s with ck := false, resp := answer 4 (crc8 (s.buf.toList.take 8)) }
  /-- UNSUPPORTED drops the check flag, clears the results and answers the family code. -/
  | unsupported (fam : Byte) : FaultRow s (.decode fam) 3 { clearResult s with ck := false, resp := answer 3 fam }

section FaultTable

variable {i : Instr} {s t : State} {code : Nat} {data : Byte}

/-- A row's code is a response code, and the row drives it. -/
theorem FaultRow.drives_code (h : FaultRow s i code t) : code < 8 ∧ ∃ data, t.resp = answer code data := by
  cases h <;> exact ⟨by decide, _, rfl⟩

/-- R151, R152: an operation that ends answers OK or by a row of the fault table. -/
theorem exec_ok_or_faultRow (h : exec i s = .next t) (hst : t.stalled = false) :
    (∃ data, t.resp = answer 0 data) ∨ ∃ code, FaultRow s i code t := by
  cases i with
  | nop => cases (exec_nop s).symm.trans h; exact .inl ⟨_, rfl⟩
  | crcclr => cases (exec_crcclr s).symm.trans h; exact .inl ⟨_, rfl⟩
  | crcupd v => cases (exec_crcupd v s).symm.trans h; exact .inl ⟨_, rfl⟩
  | srst => cases (exec_srst s).symm.trans h; exact .inl ⟨_, rfl⟩
  | chka =>
    rcases exec_chka_cases s with ⟨-, he⟩ | ⟨-, -, he⟩ | ⟨-, -, he⟩ <;> cases he.symm.trans h
    · exact .inr ⟨_, .noData⟩
    · exact .inl ⟨_, rfl⟩
    · exact .inr ⟨_, .addrCrc⟩
  | chks =>
    rcases exec_chks_cases s with ⟨-, he⟩ | ⟨-, he⟩ <;> cases he.symm.trans h
    · exact .inl ⟨_, rfl⟩
    · exact .inr ⟨_, .spadCrcOfChks⟩
  | next =>
    obtain ⟨t', ht, hcases⟩ := execNext_cases s
    cases ht.symm.trans h
    rcases hcases with ⟨-, rfl⟩ | ⟨-, w, z, q, -, -, rfl⟩ | ⟨-, q, -, rfl⟩ | ⟨-, q, -, rfl⟩
    · exact .inr ⟨_, .noMore⟩
    · exact .inl ⟨_, rfl⟩
    · exact .inr ⟨_, .busEmpty q⟩
    · cases hst
  | decode fam =>
    rcases exec_decode_cases s fam with ⟨-, he⟩ | ⟨-, -, he⟩ | ⟨-, -, he⟩ <;> cases he.symm.trans h
    · exact .inr ⟨_, .unsupported fam⟩
    · exact .inr ⟨_, .spadCrcOfDecode fam⟩
    · exact .inl ⟨_, rfl⟩
  | wrb idx v =>
    rcases exec_wrb_cases s idx v with ⟨-, he⟩ | ⟨-, he⟩ <;> cases he.symm.trans h
    · exact .inl ⟨_, rfl⟩
    · exact .inr ⟨_, .illegal _⟩
  | rd a =>
    rcases exec_rd_cases s a with ⟨v, -, he⟩ | ⟨-, he⟩ <;> cases he.symm.trans h
    · exact .inl ⟨_, rfl⟩
    · exact .inr ⟨_, .illegal _⟩

/-- R152: the response code names the row. -/
theorem faultRow_of_resp (h : exec i s = .next t) (hst : t.stalled = false) (hpos : 0 < code) (hlt : code < 8)
    (hresp : t.resp = answer code data) : FaultRow s i code t := by
  rcases exec_ok_or_faultRow h hst with ⟨d, hok⟩ | ⟨c, hrow⟩
  · obtain ⟨hzero, -⟩ := (answer_eq_iff (by decide) hlt).1 (hok.symm.trans hresp)
    omega
  · obtain ⟨hc, d, hd⟩ := hrow.drives_code
    obtain ⟨rfl, -⟩ := (answer_eq_iff hc hlt).1 (hd.symm.trans hresp)
    exact hrow

end FaultTable

/-- Settles O56: the response code names the row of the fault table, and the row is the claim. -/
theorem faultsWriteExactlyTheirRow : Obligations.FaultsWriteExactlyTheirRow := by
  intro i s t data _ h hst
  have row : ∀ code, 0 < code → code < 8 → t.resp = answer code data → FaultRow s i code t :=
    fun code => faultRow_of_resp h hst
  refine ⟨fun hr => ?illegal, fun hr => ?busEmpty, fun hr => ?noMore, fun hr => ?noData, fun hr => ?addrCrc,
    fun hr => ?spadCrc, fun hr => ?unsupported⟩
  case illegal => cases row 7 (by decide) (by decide) hr; rfl
  case busEmpty => cases row 1 (by decide) (by decide) hr; exact ⟨rfl, rfl⟩
  case noMore => cases row 5 (by decide) (by decide) hr; exact ⟨rfl, rfl⟩
  case noData => cases row 6 (by decide) (by decide) hr; exact ⟨rfl, rfl⟩
  case addrCrc => cases row 2 (by decide) (by decide) hr; exact ⟨rfl, rfl⟩
  case spadCrc =>
    cases row 4 (by decide) (by decide) hr with
    | spadCrcOfChks => exact .inl ⟨rfl, rfl⟩
    | spadCrcOfDecode fam => exact .inr ⟨fam, rfl, rfl⟩
  case unsupported =>
    cases row 3 (by decide) (by decide) hr with
    | unsupported fam => exact ⟨fam, rfl, rfl⟩

/-! ## R153: which fault is answered where two conditions hold -/

/-- Settles O57: the condition of the higher priority alone decides the equation of the operation. -/
theorem faultPriority : Obligations.FaultPriority :=
  ⟨fun _ _ => refusesWord_of_decode_error,
    fun _ hfd _ => ⟨_, exec_chka_of_not_found hfd, rfl⟩,
    fun _ _ hA hB _ => ⟨_, exec_decode_of_unsupported (not_or.2 ⟨hA, hB⟩), rfl⟩,
    fun _ _ hp _ _ => ⟨_, exec_next_of_exhausted hp, rfl, rfl⟩⟩

end Sys2Proof.Machine

/-!
The statements about a step (spec/10_state.md section 1, R36, R37; spec/20_memory.md R53 to R56; spec/60_exceptions.md
R151, R161; spec/70_reset_and_hazards.md R170, R179) and the round trip of decoder and encoder (spec/30_encoding.md R60
to R68).
-/

namespace Sys2Proof.Machine

/-! ## R60 to R68: decoder and encoder -/

/-- Settles O1: what the decoder accepts is a legal operation's word, and it accepts each of those. -/
theorem decodeEncodeAgree : Obligations.DecodeEncodeAgree :=
  fun _ _ => decodeWord_eq_ok_iff

/-- Settles O4: each word is the encoding of its operation, which is legal. -/
theorem writtenOutWordsDecode : Obligations.WrittenOutWordsDecode :=
  ⟨decodeWord_encode (i := .nop) rfl, decodeWord_encode (i := .crcclr) rfl, decodeWord_encode (i := .crcupd 0x1C) rfl,
    decodeWord_encode (i := .chka) rfl, decodeWord_encode (i := .chks) rfl, decodeWord_encode (i := .srst) rfl,
    decodeWord_encode (i := .next) rfl, decodeWord_encode (i := .decode 0x28) rfl,
    decodeWord_encode (i := .wrb 3 0x46) rfl, decodeWord_encode (i := .rd 0x07) rfl⟩

/-! ## What a step does with its input -/

section Step

variable {s t : State} {rest : List HostInput}

theorem step_of_no_input (h : s.inputs = []) : step s = .next s := by
  simp only [step, fetch, h]

theorem step_of_powerOnReset (h : s.inputs = .powerOnReset :: rest) :
    step s = .next (applyPowerOnReset { s with inputs := rest }) := by
  simp only [step, fetch, h]

theorem step_of_busChange {env : BusEnv} (h : s.inputs = .busChange env :: rest) :
    step s = .next (applyBusChange env { s with inputs := rest }) := by
  simp only [step, fetch, h]

/-- R179: a block that waits for its bus takes no command word. -/
theorem step_of_command_of_stalled {w : Word} (h : s.inputs = .command w :: rest) (hs : s.stalled = true) :
    step s = .next s := by
  simp [step, fetch, h, hs]

theorem step_of_command_of_decode_ok {w : Word} {i : Instr} (h : s.inputs = .command w :: rest)
    (hs : s.stalled = false) (hw : decodeWord w = .ok i) : step s = exec i { s with inputs := rest } := by
  simp [step, fetch, h, hs, hw]

theorem step_answers_next (s : State) : ∃ t, step s = .next t := by
  unfold step
  split
  case h_4 =>
    split
    · exact exec_answers_next _ _
    · exact ⟨_, rfl⟩
  all_goals exact ⟨_, rfl⟩

end Step

/-- Settles O7: the decoder accepts legal operations only, and the step takes the word. -/
theorem stepRunsDecodedOperation : Obligations.StepRunsDecodedOperation := by
  intro s w rest i hin hs hw
  obtain ⟨hwf, -⟩ := decodeWord_eq_ok_iff.1 hw
  exact ⟨hwf, step_of_command_of_decode_ok hin hs hw⟩

/-- Settles O8: the two cases in which a step takes nothing. -/
theorem stepWaits : Obligations.StepWaits :=
  ⟨fun _ => step_of_no_input, fun _ _ _ => step_of_command_of_stalled⟩

/-- Settles O10: the step is the power-on reset, which writes the reset state but for the port, the parameters and the
inputs. -/
theorem powerOnResetFromEveryState : Obligations.PowerOnResetFromEveryState := fun _ _ hin =>
  ⟨_, step_of_powerOnReset hin, rfl, rfl, rfl, rfl, rfl, rfl, rfl, rfl, rfl, rfl, rfl, rfl, rfl, rfl, rfl, rfl⟩

/-- Settles O14: no input makes a step fault, and no operation does. -/
theorem everyStepAnswersNext : Obligations.EveryStepAnswersNext := step_answers_next

/-- Settles O16: the step is the change of the environment. -/
theorem busChangeLeavesTheBlockAlone : Obligations.BusChangeLeavesTheBlockAlone :=
  fun _ _ _ => step_of_busChange

/-! ## 10_state.md section 1: what each operation writes -/

/-- Settles O15: operation by operation, from the next state each case of it gives. -/
theorem elementsWrittenOnlyByTheirOperations : Obligations.ElementsWrittenOnlyByTheirOperations := by
  intro i s t h
  cases i with
  | nop => cases (exec_nop s).symm.trans h; simp
  | crcclr => cases (exec_crcclr s).symm.trans h; simp
  | crcupd v => cases (exec_crcupd v s).symm.trans h; simp
  | srst => cases (exec_srst s).symm.trans h; simp
  | chka => rcases exec_chka_cases s with ⟨-, he⟩ | ⟨-, -, he⟩ | ⟨-, -, he⟩ <;> cases he.symm.trans h <;> simp
  | chks => rcases exec_chks_cases s with ⟨-, he⟩ | ⟨-, he⟩ <;> cases he.symm.trans h <;> simp
  | next =>
    obtain ⟨t', ht, hcases⟩ := execNext_cases s
    cases ht.symm.trans h
    rcases hcases with ⟨-, rfl⟩ | ⟨-, w, z, q, -, -, rfl⟩ | ⟨-, q, -, rfl⟩ | ⟨-, q, -, rfl⟩ <;> simp
  | decode fam =>
    rcases exec_decode_cases s fam with ⟨-, he⟩ | ⟨-, -, he⟩ | ⟨-, -, he⟩ <;> cases he.symm.trans h <;> simp
  | wrb idx v => rcases exec_wrb_cases s idx v with ⟨-, he⟩ | ⟨-, he⟩ <;> cases he.symm.trans h <;> simp
  | rd a => rcases exec_rd_cases s a with ⟨v, -, he⟩ | ⟨-, he⟩ <;> cases he.symm.trans h <;> simp

section Frames

variable {i : Instr} {s t : State}

theorem exec_keeps_crc (h : exec i s = .next t) (hc : i ≠ .crcclr) (hu : ∀ v, i ≠ .crcupd v) : t.crc = s.crc := by
  obtain ⟨hcrc, -⟩ := elementsWrittenOnlyByTheirOperations i s t h
  by_contra hne
  rcases hcrc hne with hi | ⟨v, hi⟩
  · exact hc hi
  · exact hu v hi

theorem exec_keeps_results (h : exec i s = .next t) (hd : ∀ fam, i ≠ .decode fam) :
    t.ng = s.ng ∧ t.whole = s.whole ∧ t.frac = s.frac ∧ t.tlen = s.tlen ∧ t.tstr = s.tstr := by
  obtain ⟨-, -, -, -, -, -, hresults, -⟩ := elementsWrittenOnlyByTheirOperations i s t h
  by_contra hne
  obtain ⟨fam, hi⟩ := hresults (by tauto)
  exact hd fam hi

theorem exec_keeps_port (h : exec i s = .next t) (hn : i ≠ .next) : t.port = s.port := by
  obtain ⟨-, -, -, -, -, -, -, hport, -⟩ := elementsWrittenOnlyByTheirOperations i s t h
  by_contra hne
  exact hn (hport (.inl hne))

theorem exec_keeps_inputs (h : exec i s = .next t) : t.inputs = s.inputs := by
  obtain ⟨-, -, -, -, -, -, -, -, -, hinputs⟩ := elementsWrittenOnlyByTheirOperations i s t h
  exact hinputs

end Frames

/-! ## R36: the invariants of the cursor -/

section Invariants

variable {i : Instr} {s t : State}

/-- R36: the cursor's clauses speak of `PHASE`, `LASTD` and `FD` only. -/
theorem cursorInv_of_eq (hs : CursorInv s) (hphase : t.phase = s.phase) (hlastd : t.lastd = s.lastd)
    (hfd : t.fd = s.fd) : CursorInv t := by
  simpa only [CursorInv, hphase, hlastd, hfd] using hs

/-- R36: an unused cursor, as `SRST` and the power-on reset leave it. -/
theorem cursorInv_of_idle (hphase : t.phase = .idle) (hlastd : t.lastd = 0) (hfd : t.fd = false) : CursorInv t := by
  simp [CursorInv, hphase, hlastd, hfd]

/-- R36: EXHAUSTED without a position to resume from, with or without a found address. -/
theorem cursorInv_of_exhausted (hphase : t.phase = .exhausted) (hlastd : t.lastd = 0) : CursorInv t := by
  simp [CursorInv, hphase, hlastd]

/-- R109: a completed pass leaves SEARCHING with a position to resume from, or EXHAUSTED without one. -/
theorem cursorInv_of_complete {z : Nat} (hz : z ≤ 64) (hphase : t.phase = phaseAfter z)
    (hlastd : t.lastd = BitVec.ofNat 7 z) (hfd : t.fd = true) : CursorInv t := by
  have hnum : t.lastd.toNat = z := hlastd ▸ toNat_ofNat_of_lastZero hz
  rcases Nat.eq_zero_or_pos z with rfl | hpos
  · exact cursorInv_of_exhausted hphase hlastd
  · have hphase : t.phase = .searching := hphase.trans (if_neg hpos.ne')
    simp [CursorInv, hphase, hfd, hnum, hz, Nat.succ_le_iff, hpos]

theorem exec_keeps_cursorInv (hs : CursorInv s) (h : exec i s = .next t) : CursorInv t := by
  by_cases hn : i = .next
  · subst hn
    obtain ⟨t', ht, hcases⟩ := execNext_cases s
    cases ht.symm.trans h
    rcases hcases with ⟨hp, rfl⟩ | ⟨-, w, z, q, -, hz, rfl⟩ | ⟨-, q, -, rfl⟩ | ⟨-, q, -, rfl⟩
    · obtain ⟨-, -, hlastd, -⟩ := hs
      exact cursorInv_of_exhausted hp (hlastd hp)
    · exact cursorInv_of_complete hz rfl rfl rfl
    · exact cursorInv_of_exhausted rfl rfl
    · exact cursorInv_of_eq hs rfl rfl rfl
  · by_cases hr : i = .srst
    · subst hr
      cases (exec_srst s).symm.trans h
      exact cursorInv_of_idle rfl rfl rfl
    · obtain ⟨hphase, hlastd, hfd, -⟩ := exec_keeps_scanner hn hr h
      exact cursorInv_of_eq hs hphase hlastd hfd

/-! ## R36: the invariants of the results -/

/-- R36: the decoder's clauses speak of the five result registers only. -/
theorem resultInv_of_eq (hs : ResultInv s) (h : t.ng = s.ng ∧ t.whole = s.whole ∧ t.frac = s.frac ∧ t.tlen = s.tlen ∧
    t.tstr = s.tstr) : ResultInv t := by
  obtain ⟨hng, hwhole, hfrac, htlen, htstr⟩ := h
  simpa only [ResultInv, hng, hwhole, hfrac, htlen, htstr] using hs

/-- R131: cleared results, as a failed `DECODE` and the power-on reset leave them. -/
theorem resultInv_of_cleared (hng : t.ng = false) (hwhole : t.whole = 0) (hfrac : t.frac = 0) (htlen : t.tlen = 0)
    (htstr : t.tstr = #v[0, 0, 0, 0, 0, 0, 0, 0]) : ResultInv t := by
  simp [ResultInv, hng, hwhole, hfrac, htlen, htstr]

/-- R124: the whole part and the fraction are the two parts of the scaled magnitude. -/
theorem readingOf_hundredths (raw : BitVec 16) :
    100 * (readingOf raw).whole + (readingOf raw).frac = magTemp raw * 6 + magTemp raw / 4 := by
  rw [readingOf_whole, readingOf_frac]
  exact Nat.div_add_mod _ _

/-- R122: the magnitude of a negative reading is not zero. -/
theorem magTemp_pos_of_neg {raw : BitVec 16} (h : negTemp raw = true) : 0 < magTemp raw := by
  have := raw.isLt
  have hneg := (negTemp_iff raw).1 h
  rw [magTemp_eq, if_pos hneg]
  omega

/-- R26: a negative reading is at least 6 hundredths below zero. -/
theorem readingOf_six_le_of_neg {raw : BitVec 16} (h : (readingOf raw).neg = true) :
    6 ≤ 100 * (readingOf raw).whole + (readingOf raw).frac := by
  have := magTemp_pos_of_neg h
  rw [readingOf_hundredths]
  omega

/-- R36: registers that hold a reading satisfy the decoder's clauses. -/
theorem resultInv_of_holdsReading {raw : BitVec 16} (h : HoldsReading t (readingOf raw)) : ResultInv t := by
  obtain ⟨hneg, hwhole, hfrac, htlen, htstr⟩ := h
  obtain ⟨hmin, hmax⟩ := readingOf_text_length raw
  have hmag := magTemp_le raw
  have hpos : t.tlen.toNat ≠ 0 := by omega
  refine ⟨.inr (by omega), fun h0 => absurd h0 hpos, fun _ => ⟨?frac, ?whole, fun j hj => ?padding, ?text⟩,
    fun hng => ⟨hpos, ?sign⟩⟩
  case frac =>
    have := readingOf_frac_lt raw
    omega
  case whole =>
    rw [hwhole, readingOf_whole]
    omega
  case padding =>
    have hget : t.tstr[j] = t.tstr.toList[j.val]'(by simp) := (Vector.getElem_toList (by simp)).symm
    simp only [hget, htstr]
    rw [List.getElem_append_right (htlen ▸ hj)]
    exact List.getElem_replicate _
  case text =>
    rw [htstr, htlen, List.take_left, hneg, hwhole, hfrac]
    rfl
  case sign =>
    rw [hwhole, hfrac]
    exact readingOf_six_le_of_neg (hneg ▸ hng)

theorem exec_keeps_resultInv (hs : ResultInv s) (h : exec i s = .next t) : ResultInv t := by
  by_cases hd : ∃ fam, i = .decode fam
  · obtain ⟨fam, rfl⟩ := hd
    rcases exec_decode_cases s fam with ⟨-, he⟩ | ⟨-, -, he⟩ | ⟨hf, hc, -⟩
    · cases he.symm.trans h
      exact resultInv_of_cleared rfl rfl rfl rfl rfl
    · cases he.symm.trans h
      exact resultInv_of_cleared rfl rfl rfl rfl rfl
    · obtain ⟨t', ht', hr, -⟩ := exec_decode_holdsReading hf hc
      cases ht'.symm.trans h
      exact resultInv_of_holdsReading hr
  · exact resultInv_of_eq hs (exec_keeps_results h fun fam hi => hd ⟨fam, hi⟩)

theorem inv_applyPowerOnReset (s : State) : Inv (applyPowerOnReset s) :=
  ⟨cursorInv_of_idle rfl rfl rfl, resultInv_of_cleared rfl rfl rfl rfl rfl⟩

end Invariants

/-- Settles O12: by what a step can be: an operation keeps both groups of clauses, the reset establishes them, and
nothing else touches the registers they speak of. -/
theorem everyStepKeepsInvariants : Obligations.EveryStepKeepsInvariants := by
  rintro s t ⟨hcursor, hresult⟩ h
  rcases step_cases h with rfl | ⟨rest, -, rfl⟩ | ⟨env, rest, -, rfl⟩ | ⟨w, rest, i, -, -, -, he⟩ |
    ⟨w, rest, e, -, -, -, rfl⟩
  · exact ⟨hcursor, hresult⟩
  · exact inv_applyPowerOnReset _
  · exact ⟨hcursor, hresult⟩
  · exact ⟨exec_keeps_cursorInv (s := { s with inputs := rest }) hcursor he,
      exec_keeps_resultInv (s := { s with inputs := rest }) hresult he⟩
  · exact ⟨hcursor, hresult⟩

/-! ## R53: the reference bus stays as described -/

/-- R107, R179: the port as a pass leaves it. -/
def Pass.port : Pass → BusPort
  | .complete _ _ p => p
  | .abort p => p
  | .hung p => p

/-- R50: the port as a primitive leaves it. -/
def BusResult.port : BusResult → BusPort
  | .returned _ p => p
  | .hung p => p

/-- R52, R54: a property of environments that every primitive keeps. -/
structure KeptByPrimitives (P : BusEnv → Prop) : Prop where
  reset : ∀ env, P env → P (envAnswer env wbReset).2
  read : ∀ env, P env → P (envAnswer env wbReadBit).2
  write : ∀ env b, P env → P (envAnswer env fun w => (b, wbWriteBit w b)).2

theorem busPerform_port_env (p : BusPort) (onWB : WB → Bool × WB) (event : Bool → BusEvent) :
    (busPerform p onWB event).port.env = (envAnswer p.env onWB).2 := by
  unfold busPerform
  rcases envAnswer p.env onWB with ⟨_ | b, env⟩ <;> rfl

section Kept

variable {P : BusEnv → Prop} (hP : KeptByPrimitives P)

include hP

theorem busReset_keeps {p : BusPort} {r : BusResult} (he : busReset p = r) (h : P p.env) : P r.port.env := by
  rw [← he, busReset, busPerform_port_env]
  exact hP.reset _ h

theorem busReadBit_keeps {p : BusPort} {r : BusResult} (he : busReadBit p = r) (h : P p.env) : P r.port.env := by
  rw [← he, busReadBit, busPerform_port_env]
  exact hP.read _ h

theorem busWriteBit_keeps {p : BusPort} {b : Bool} {r : BusResult} (he : busWriteBit p b = r) (h : P p.env) :
    P r.port.env := by
  rw [← he, busWriteBit, busPerform_port_env]
  exact hP.write _ b h

theorem busWriteBits_keeps (v : Byte) (n j : Nat) {p : BusPort} {r : BusResult} (he : busWriteBits v n j p = r)
    (h : P p.env) : P r.port.env := by
  subst he
  induction n generalizing j p with
  | zero => exact h
  | succ n ih =>
    unfold busWriteBits
    split <;> rename_i he
    · exact ih (j + 1) (busWriteBit_keeps hP he h)
    · exact busWriteBit_keeps hP he h

theorem searchBits_keeps (lastd : Nat) (rom : Address) (n k : Nat) (work : Address) (z : Nat) {p : BusPort}
    (h : P p.env) : P (searchBits lastd rom n k work z p).port.env := by
  induction n generalizing k work z p with
  | zero => exact h
  | succ n ih =>
    unfold searchBits
    split <;> rename_i he1 <;> have h1 := busReadBit_keeps hP he1 h
    · exact h1
    · split <;> rename_i he2 <;> have h2 := busReadBit_keeps hP he2 h1
      · exact h2
      · split
        · exact h2
        · split <;> rename_i he3 <;> have h3 := busWriteBit_keeps hP he3 h2
          · exact h3
          · exact ih _ _ _ h3

theorem searchPass_keeps (lastd : Nat) (rom : Address) {p : BusPort} (h : P p.env) :
    P (searchPass lastd rom p).port.env := by
  unfold searchPass
  split <;> rename_i he1 <;> have h1 := busReset_keeps hP he1 h
  · exact h1
  · exact h1
  · split <;> rename_i he2 <;> have h2 := busWriteBits_keeps hP searchCommand 8 0 he2 h1
    · exact h2
    · exact searchBits_keeps hP lastd rom 64 1 zeroAddress 0 h2

theorem exec_keeps_env {i : Instr} {s t : State} (hs : P s.port.env) (h : exec i s = .next t) : P t.port.env := by
  by_cases hn : i = .next
  · subst hn
    have hpass := searchPass_keeps hP s.lastd.toNat s.rom hs
    obtain ⟨t', ht, hcases⟩ := execNext_cases s
    cases ht.symm.trans h
    rcases hcases with ⟨-, rfl⟩ | ⟨-, w, z, q, he, -, rfl⟩ | ⟨-, q, he, rfl⟩ | ⟨-, q, he, rfl⟩
    · exact hs
    all_goals
      rw [he] at hpass
      exact hpass
  · rw [exec_keeps_port h hn]
    exact hs

end Kept

theorem wbWf_reset {w : WB} (h : WBWf w) : WBWf (wbReset w).2 := ⟨h.1, Nat.succ_pos 7⟩

theorem wbWf_readBit {w : WB} (h : WBWf w) : WBWf (wbReadBit w).2 := by
  obtain ⟨hnodup, hmode⟩ := h
  unfold wbReadBit
  split
  case h_3 => exact ⟨hnodup, hmode⟩
  all_goals
    rename_i he
    rw [he] at hmode
    split
    · rename_i hi
      obtain ⟨hsub, hle, -⟩ := hmode
      exact ⟨hnodup, hsub, hle, fun _ => hi⟩
    · exact ⟨hnodup, he ▸ hmode⟩

theorem wbWf_writeBit {w : WB} (b : Bool) (h : WBWf w) : WBWf (wbWriteBit w b) := by
  obtain ⟨hnodup, hmode⟩ := h
  unfold wbWriteBit
  split
  case h_1 received he =>
    refine ⟨hnodup, ?_⟩
    unfold wbCommand
    split_ifs with hlen
    · exact hlen
    · exact ⟨List.Sublist.refl _, Nat.zero_le _, fun hne => absurd rfl hne⟩
    · trivial
  case h_2 taking i he =>
    rw [he] at hmode
    split
    · rename_i hi
      obtain ⟨hsub, -, -⟩ := hmode
      exact ⟨hnodup, List.filter_sublist.trans hsub, hi, fun hne => absurd rfl hne⟩
    · exact ⟨hnodup, he ▸ hmode⟩
  case h_3 => exact ⟨hnodup, hmode⟩

/-- R52, R53: a primitive that keeps a well-formed reference bus keeps a well-formed environment. -/
theorem busEnvWf_envAnswer {onWB : WB → Bool × WB} (hWB : ∀ w, WBWf w → WBWf (onWB w).2) {env : BusEnv}
    (h : BusEnvWf env) : BusEnvWf (envAnswer env onWB).2 := by
  unfold envAnswer
  split
  case h_4 w => exact hWB w h
  all_goals trivial

theorem keptByPrimitives_busEnvWf : KeptByPrimitives BusEnvWf where
  reset _ := busEnvWf_envAnswer fun _ => wbWf_reset
  read _ := busEnvWf_envAnswer fun _ => wbWf_readBit
  write _ b := busEnvWf_envAnswer fun _ => wbWf_writeBit b

/-- Settles O13: by what a step can be: an operation keeps the environment well formed because every primitive does, and
a change of the bus brings a well-formed one. -/
theorem everyStepKeepsReferenceBus : Obligations.EveryStepKeepsReferenceBus := by
  rintro s t ⟨henv, hin⟩ h
  have hrest {x : HostInput} {rest : List HostInput} (hs : s.inputs = x :: rest) :
      HostInputWf x ∧ ∀ y ∈ rest, HostInputWf y := by
    rwa [hs, List.forall_mem_cons] at hin
  rcases step_cases h with rfl | ⟨rest, hs, rfl⟩ | ⟨env, rest, hs, rfl⟩ | ⟨w, rest, i, hs, -, -, he⟩ |
    ⟨w, rest, e, hs, -, -, rfl⟩
  · exact ⟨henv, hin⟩
  · exact ⟨henv, (hrest hs).2⟩
  · exact hrest hs
  · refine ⟨exec_keeps_env (s := { s with inputs := rest }) keptByPrimitives_busEnvWf henv he, ?_⟩
    rw [exec_keeps_inputs he]
    exact (hrest hs).2
  · exact ⟨henv, (hrest hs).2⟩

/-- Settles O11: the reset state has an unused cursor, cleared results, a bus without devices and no inputs. -/
theorem resetSatisfiesInvariants : Obligations.ResetSatisfiesInvariants :=
  ⟨inv_applyPowerOnReset State.reset, ⟨List.nodup_nil, trivial⟩, by simp [State.reset]⟩

end Sys2Proof.Machine

/-!
The laws of the checksum (spec/40_crc.md R83, R86, R87, sections 1 and 2) and what they say of `CRCUPD`, `CHKA`, `CHKS`
and `DECODE` (section 3; spec/70_reset_and_hazards.md section 3).
-/

namespace Sys2Proof.Machine

/-! ## R83: the bit-serial form and the table form -/

/-- R83 (a): a serial bit is the lowest bit of the input in a shift of the register with the input XORed in. -/
theorem crcSerialBit_xor_shift (c x : Byte) : crcSerialBit c (x.getLsbD 0) ^^^ (x >>> 1) = crcShift (c ^^^ x) := by
  simp only [crcSerialBit, crcShift, BitVec.getLsbD_xor, BitVec.ushiftRight_xor_distrib]
  split
  · rw [BitVec.xor_assoc, BitVec.xor_comm crcTaps, ← BitVec.xor_assoc]
  · rfl

/-- R83 (a): the bits of a byte from bit `j` on are as many shifts of the register with those bits XORed in. -/
theorem crcSerialBits_eq_crcShifts (b : Byte) {n j : Nat} (h : j + n = 8) (c : Byte) :
    crcSerialBits b n j c = crcShifts n (c ^^^ (b >>> j)) := by
  induction n generalizing j c with
  | zero =>
    obtain rfl : j = 8 := h
    rw [BitVec.ushiftRight_eq_zero le_rfl, BitVec.xor_zero]
    rfl
  | succ n ih =>
    have hbit : b.getLsbD j = (b >>> j).getLsbD 0 := by simp
    rw [crcSerialBits, ih (by omega), BitVec.shiftRight_add, hbit, crcSerialBit_xor_shift]
    rfl

theorem crc8Byte_eq_crcSerialBits (c b : Byte) : crc8Byte c b = crcSerialBits b 8 0 c := by
  rw [crcSerialBits_eq_crcShifts b rfl, BitVec.ushiftRight_zero]
  rfl

theorem crcFold_eq_crcSerial (c : Byte) (s : List Byte) : crcFold c s = crcSerial c s := by
  induction s generalizing c with
  | nil => rfl
  | cons b s ih => rw [crcFold, crcSerial, ih, crc8Byte_eq_crcSerialBits]

/-- R83 (b): the table is the byte step on the register with the byte XORed in. -/
theorem crcTable_xor (c b : Byte) : crcTable (c ^^^ b) = crc8Byte c b := by
  simp [crcTable, crc8Byte]

theorem crcFold_eq_foldl_crcTable (c : Byte) (s : List Byte) :
    crcFold c s = s.foldl (fun r b => crcTable (r ^^^ b)) c := by
  induction s generalizing c with
  | nil => rfl
  | cons b s ih => rw [crcFold, ih, List.foldl_cons, crcTable_xor]

/-- Settles O20: each form makes the byte step of every byte. -/
theorem serialAndTableFormsAgree : Obligations.SerialAndTableFormsAgree :=
  ⟨crcFold_eq_crcSerial, crcFold_eq_foldl_crcTable⟩

/-! ## The checksum as a polynomial remainder -/

section Remainder

open Polynomial

/-- R81: the polynomial a register value stands for, bit `7 - j` the coefficient of `x ^ j`. -/
noncomputable def registerPoly (c : Byte) : (ZMod 2)[X] :=
  ∑ j ∈ Finset.range 8, if c.getLsbD (7 - j) then X ^ j else 0

/-- R81: the polynomial of the tap mask. -/
noncomputable def crcModulus : (ZMod 2)[X] := X ^ 8 + X ^ 5 + X ^ 4 + 1

/-- The message polynomial with one more bit at its end. -/
noncomputable def appendBit (p : (ZMod 2)[X]) (d : Bool) : (ZMod 2)[X] := p * X + if d then 1 else 0

/-- The bits of a byte in processing order. -/
def processingBits (b : Byte) : List Bool := (List.range 8).map b.getLsbD

theorem registerPoly_zero : registerPoly 0 = 0 := by simp [registerPoly]

theorem registerPoly_xor (a b : Byte) : registerPoly (a ^^^ b) = registerPoly a + registerPoly b := by
  rw [registerPoly, registerPoly, registerPoly, ← Finset.sum_add_distrib]
  refine Finset.sum_congr rfl fun j _ => ?_
  rw [BitVec.getLsbD_xor]
  cases a.getLsbD (7 - j) <;> cases b.getLsbD (7 - j) <;> simp [CharTwo.add_self_eq_zero]

/-- R81: a shift multiplies by `x`; the bit shifted out is the coefficient of `x ^ 8`. -/
theorem registerPoly_shift (c : Byte) :
    registerPoly (c >>> 1) + (if c.getLsbD 0 then X ^ 8 else 0) = registerPoly c * X := by
  simp [registerPoly, Finset.sum_range_succ, add_mul, pow_succ]

/-- R81: the tap mask is the modulus without its leading term. -/
theorem registerPoly_crcTaps : X ^ 8 + registerPoly crcTaps = crcModulus := by
  simp [registerPoly, crcModulus, crcTaps, Finset.sum_range_succ]
  ring

/-- One serial bit: the register is multiplied by `x`, the bit comes in at `x ^ 8`, and the modulus is taken off when
the feedback bit is 1. -/
theorem registerPoly_crcSerialBit (c : Byte) (d : Bool) :
    registerPoly (crcSerialBit c d) = registerPoly c * X + (if d then X ^ 8 else 0) +
      if Bool.xor (c.getLsbD 0) d then crcModulus else 0 := by
  have htwo : (X : (ZMod 2)[X]) ^ 8 + X ^ 8 = 0 := CharTwo.add_self_eq_zero _
  rw [← registerPoly_shift, ← registerPoly_crcTaps, crcSerialBit]
  cases c.getLsbD 0 <;> cases d <;> simp [registerPoly_xor] <;> linear_combination -htwo

theorem crcModulus_dvd_foldl (bits : List Bool) {c : Byte} {p : (ZMod 2)[X]}
    (h : crcModulus ∣ registerPoly c - p * X ^ 8) :
    crcModulus ∣ registerPoly (bits.foldl crcSerialBit c) - bits.foldl appendBit p * X ^ 8 := by
  induction bits generalizing c p with
  | nil => exact h
  | cons d bits ih =>
    refine ih ?_
    have hstep : registerPoly (crcSerialBit c d) - appendBit p d * X ^ 8 =
        (registerPoly c - p * X ^ 8) * X + if Bool.xor (c.getLsbD 0) d then crcModulus else 0 := by
      rw [registerPoly_crcSerialBit, appendBit]
      cases d <;> simp <;> ring
    rw [hstep]
    refine dvd_add (h.mul_right X) ?_
    split
    · exact dvd_rfl
    · exact dvd_zero _

theorem crcSerialBits_eq_foldl (b : Byte) (n j : Nat) (c : Byte) :
    crcSerialBits b n j c = ((List.range' j n).map b.getLsbD).foldl crcSerialBit c := by
  induction n generalizing j c with
  | zero => rfl
  | succ n ih => rw [crcSerialBits, ih, List.range'_succ, List.map_cons, List.foldl_cons]

theorem crcFold_eq_foldl_bits (c : Byte) (s : List Byte) :
    crcFold c s = (s.flatMap processingBits).foldl crcSerialBit c := by
  induction s generalizing c with
  | nil => rfl
  | cons b s ih =>
    rw [crcFold, ih, crc8Byte_eq_crcSerialBits, crcSerialBits_eq_foldl, ← List.range_eq_range', List.flatMap_cons,
      List.foldl_append]
    rfl

theorem crcModulus_monic : crcModulus.Monic := by
  unfold crcModulus
  monicity!

theorem crcModulus_degree : crcModulus.degree = 8 := by
  unfold crcModulus
  compute_degree!

theorem registerPoly_degree_lt (c : Byte) : (registerPoly c).degree < 8 := by
  refine (degree_sum_le _ _).trans_lt ((Finset.sup_lt_iff (WithBot.bot_lt_coe 8)).2 fun j hj => ?_)
  split
  · rw [degree_X_pow]
    exact_mod_cast Finset.mem_range.1 hj
  · rw [degree_zero]
    exact WithBot.bot_lt_coe 8

/-- Settles O18: bit by bit the register stays congruent to the message times `x ^ 8`, and its degree is below that of
the modulus. -/
theorem checksumIsPolynomialRemainder : Obligations.ChecksumIsPolynomialRemainder := by
  intro s
  have hdvd : crcModulus ∣ registerPoly (crc8 s) - (s.flatMap processingBits).foldl appendBit 0 * X ^ 8 := by
    rw [crc8, crcFold_eq_foldl_bits]
    refine crcModulus_dvd_foldl _ ?_
    rw [crcInit, registerPoly_zero, zero_mul, sub_zero]
    exact dvd_zero _
  have hreduced : registerPoly (crc8 s) %ₘ crcModulus = registerPoly (crc8 s) :=
    (modByMonic_eq_self_iff crcModulus_monic).2 (crcModulus_degree ▸ registerPoly_degree_lt _)
  have hzero := (modByMonic_eq_zero_iff_dvd crcModulus_monic).2 hdvd
  rw [sub_modByMonic, hreduced] at hzero
  exact sub_eq_zero.1 hzero

end Remainder

/-! ## R86 (b), (c): composition and residue -/

/-- R87: a nonempty record passes exactly when its whole checksum is zero. -/
theorem recordPasses_iff {r : List Byte} (hr : r ≠ []) : recordPasses r = true ↔ crc8 r = 0x00 := by
  have hsplit : crc8 r = crc8Byte (crc8 r.dropLast) (r.getLast hr) := by
    rw [← crc8_append_singleton, List.dropLast_append_getLast]
  rw [hsplit, recordPasses, List.getLast?_eq_some_getLast hr]
  exact beq_iff_eq.trans (crc8Byte_eq_zero _ _).symm

/-- Settles O21: the fold over a sequence cut in two, and the byte step of the register with itself. -/
theorem checksumResidueIsZero : Obligations.ChecksumResidueIsZero := by
  refine ⟨crcFold_append crcInit, fun s => ?residue, fun r => recordPasses_iff⟩
  case residue =>
    rw [crc8_append_singleton]
    exact (crc8Byte_eq_zero _ _).2 rfl

/-! ## R86 (d): linearity -/

theorem crc8Byte_xor (c d a b : Byte) : crc8Byte (c ^^^ d) (a ^^^ b) = crc8Byte c a ^^^ crc8Byte d b := by
  rw [crc8Byte, crc8Byte, crc8Byte, ← crcShifts_xor]
  congr 1
  ac_rfl

theorem crcFold_zipWith_xor (c d : Byte) {s t : List Byte} (h : s.length = t.length) :
    crcFold (c ^^^ d) (List.zipWith (fun a b => a ^^^ b) s t) = crcFold c s ^^^ crcFold d t := by
  induction s generalizing c d t with
  | nil =>
    obtain rfl := List.length_eq_zero_iff.1 h.symm
    rfl
  | cons a s ih =>
    obtain ⟨b, t, rfl⟩ := List.exists_cons_of_length_eq_add_one h.symm
    rw [List.zipWith_cons_cons, crcFold, crc8Byte_xor]
    exact ih _ _ (Nat.succ.inj h)

/-- Settles O22: byte by byte from the register values 0x00 and 0x00. -/
theorem checksumIsLinear : Obligations.ChecksumIsLinear :=
  fun _ _ => crcFold_zipWith_xor 0x00 0x00

/-! ## R86 (e): single-bit errors -/

theorem crc8Byte_comm (c b : Byte) : crc8Byte c b = crc8Byte b c := by
  rw [crc8Byte, crc8Byte, BitVec.xor_comm]

/-- The byte step is injective in the byte. -/
theorem crc8Byte_right_inj {c a b : Byte} (h : crc8Byte c a = crc8Byte c b) : a = b := by
  rw [crc8Byte_comm c a, crc8Byte_comm c b] at h
  exact crc8Byte_left_inj h

/-- The fold is injective in the register. -/
theorem crcFold_left_inj {c d : Byte} {s : List Byte} (h : crcFold c s = crcFold d s) : c = d := by
  induction s generalizing c d with
  | nil => exact h
  | cons b s ih => exact crc8Byte_left_inj (ih h)

/-- Sequences that differ in one byte have different checksums. -/
theorem crc8_ne_of_one_byte {a b : Byte} (hab : a ≠ b) (s t : List Byte) : crc8 (s ++ a :: t) ≠ crc8 (s ++ b :: t) := by
  rw [crc8, crc8, crcFold_append, crcFold_append]
  exact fun h => hab (crc8Byte_right_inj (crcFold_left_inj (s := t) h))

/-- The flip of one bit of a byte. -/
def flipBit (j : Nat) (b : Byte) : Byte := b ^^^ (1#8 <<< j)

theorem flipBit_ne (b : Byte) {j : Nat} (hj : j < 8) : b ≠ flipBit j b := by
  intro h
  have hbit := congrArg (·.getLsbD j) h
  simp [flipBit, hj] at hbit

/-- R86 (e): a passing record fails after a flip of one bit. -/
theorem recordPasses_modify_flipBit {r : List Byte} {i j : Nat} (hr : recordPasses r = true) (hi : i < r.length)
    (hj : j < 8) : recordPasses (r.modify i (flipBit j)) = false := by
  have hne : r ≠ [] := List.ne_nil_of_length_pos (by omega)
  have hne' : r.modify i (flipBit j) ≠ [] := List.ne_nil_of_length_pos (by rw [List.length_modify]; omega)
  have hr := (recordPasses_iff hne).1 hr
  have hdiff := crc8_ne_of_one_byte (flipBit_ne r[i] hj) (r.take i) (r.drop (i + 1))
  rw [List.getElem_cons_drop, List.take_append_drop, hr, ← List.modify_eq_take_cons_drop hi] at hdiff
  exact Bool.eq_false_of_not_eq_true fun h => hdiff ((recordPasses_iff hne').1 h).symm

/-- R87: the check of a register of `n + 1` bytes is the check of its record. -/
theorem recordPasses_toList {n : Nat} (v : Vector Byte (n + 1)) :
    recordPasses v.toList = true ↔ crc8 (v.toList.take n) = v[n] := by
  have hne : v.toList ≠ [] := List.ne_nil_of_length_pos (by simp)
  have hlast : v.toList.getLast hne = v[n] := by simp [List.getLast_eq_getElem]
  rw [recordPasses, List.getLast?_eq_some_getLast hne, hlast, List.dropLast_eq_take, Vector.length_toList]
  exact beq_iff_eq

/-- R86 (e): a register that passes its check fails it after a flip of one bit. -/
theorem crc8_set_flipBit_ne {n : Nat} {v : Vector Byte (n + 1)} (i : Fin (n + 1)) {j : Nat}
    (hv : crc8 (v.toList.take n) = v[n]) (hj : j < 8) :
    crc8 ((v.set i (flipBit j v[i])).toList.take n) ≠ (v.set i (flipBit j v[i]))[n] := by
  have hi : i.val < v.toList.length := by simp [Nat.le_of_lt_succ i.isLt]
  have hset : (v.set i (flipBit j v[i])).toList = v.toList.modify i (flipBit j) := by
    rw [Vector.toList_set, List.set_eq_take_append_cons_drop, if_pos hi, List.modify_eq_take_cons_drop hi,
      Vector.getElem_toList]
    rfl
  have hfail := recordPasses_modify_flipBit ((recordPasses_toList v).2 hv) hi hj
  rw [← hset] at hfail
  exact fun h => Bool.false_ne_true (hfail.symm.trans ((recordPasses_toList _).2 h))

/-- Settles O23: records by the checksum of all their bytes, the two registers by the records they hold. -/
theorem singleBitFlipsFailTheCheck : Obligations.SingleBitFlipsFailTheCheck := by
  refine ⟨fun r i j => recordPasses_modify_flipBit, fun s i j hc hj => ?chks, fun s i j hfd hc hj => ?chka⟩
  case chks =>
    have hfail := crc8_set_flipBit_ne i hc hj
    exact ⟨_, _, exec_chks_of_fail hfail, rfl, rfl⟩
  case chka =>
    have hfail := crc8_set_flipBit_ne i hc hj
    exact ⟨_, _, exec_chka_of_fail (s := { s with rom := s.rom.set i (s.rom[i] ^^^ (1#8 <<< j)) }) hfd hfail, rfl, rfl⟩

/-! ## R86 (f), R176: records of zeros -/

theorem crc8_replicate_zero (n : Nat) : crc8 (List.replicate n 0x00) = 0x00 := by
  induction n with
  | zero => rfl
  | succ n ih =>
    rw [List.replicate_succ', crc8_append_singleton, ih]
    exact (crc8Byte_eq_zero _ _).2 rfl

section Zeros

variable {s : State}

theorem exec_chka_of_zero_rom (hfd : s.fd = true) (hrom : s.rom = #v[0, 0, 0, 0, 0, 0, 0, 0]) :
    exec .chka s = .next { s with ck := true, resp := answer 0 0x00 } := by
  have hcrc : crc8 (s.rom.toList.take 7) = 0x00 := hrom ▸ crc8_replicate_zero 7
  have hlast : s.rom[7] = 0x00 := by rw [hrom]; rfl
  rw [exec_chka_of_pass hfd (hcrc.trans hlast.symm), hcrc]

/-- R89: the checksum and the last byte of a buffer of zeros. -/
theorem crc8_of_zero_buf (hbuf : s.buf = #v[0, 0, 0, 0, 0, 0, 0, 0, 0]) :
    crc8 (s.buf.toList.take 8) = 0x00 ∧ s.buf[8] = 0x00 := by
  constructor
  · rw [hbuf]
    exact crc8_replicate_zero 8
  · rw [hbuf]
    rfl

theorem exec_chks_of_zero_buf (hbuf : s.buf = #v[0, 0, 0, 0, 0, 0, 0, 0, 0]) :
    exec .chks s = .next { s with ck := true, resp := answer 0 0x00 } := by
  obtain ⟨hcrc, hlast⟩ := crc8_of_zero_buf hbuf
  rw [exec_chks_of_pass (hcrc.trans hlast.symm), hcrc]

/-- R127: the raw value 0 reads 0.00. -/
theorem readingOf_zero : readingOf 0x0000 = ⟨false, 0, 0, [0x30, 0x2E, 0x30, 0x30]⟩ := by decide

theorem exec_decode_of_zero_buf {fam : Byte} (hbuf : s.buf = #v[0, 0, 0, 0, 0, 0, 0, 0, 0])
    (hf : fam = s.params.familyA ∨ fam = s.params.familyB) :
    exec (.decode fam) s = .next { s with
      ck := true, ng := false, whole := 0, frac := 0, tlen := 4,
      tstr := #v[0x30, 0x2E, 0x30, 0x30, 0, 0, 0, 0], resp := answer 0 0x04 } := by
  obtain ⟨hcrc, hlast⟩ := crc8_of_zero_buf hbuf
  have hraw : rawTemp s.buf = 0x0000 := by rw [hbuf]; rfl
  rw [exec_decode_of_pass hf (hcrc.trans hlast.symm), hraw, readingOf_zero]
  rfl

end Zeros

/-- Settles O24: the fold over zeros, then the cases of the three operations it decides. -/
theorem zeroRecordsPass : Obligations.ZeroRecordsPass :=
  ⟨crc8_replicate_zero, fun _ => exec_chka_of_zero_rom, fun _ => exec_chks_of_zero_buf,
    fun _ _ => exec_decode_of_zero_buf⟩

/-! ## R85: `CRCUPD` -/

theorem encode_crcupd (v : Byte) : encode (.crcupd v) = BitVec.ofNat 16 (0x2000 + v.toNat) :=
  packWord_eq_ofNat 2 v

/-- R85: over any operations without `CRCCLR` the register folds in the bytes of the `CRCUPD` operations. -/
theorem execAll_crc {is : List Instr} (his : .crcclr ∉ is) (s : State) :
    ∃ t, execAll is s = .next t ∧ t.crc = crcFold s.crc (updatedBytes is) := by
  induction is generalizing s with
  | nil => exact ⟨s, rfl, rfl⟩
  | cons i is ih =>
    obtain ⟨hi, his⟩ := List.ne_and_not_mem_of_not_mem_cons his
    obtain ⟨s', hs'⟩ := exec_answers_next i s
    obtain ⟨t, ht, hcrc⟩ := ih his s'
    refine ⟨t, by simpa only [execAll, hs'] using ht, hcrc.trans ?_⟩
    by_cases hu : ∃ v, i = .crcupd v
    · obtain ⟨v, rfl⟩ := hu
      cases (exec_crcupd v s).symm.trans hs'
      rfl
    · have hbytes : updatedBytes (i :: is) = updatedBytes is := by
        cases i
        case crcupd v => exact absurd ⟨v, rfl⟩ hu
        all_goals rfl
      rw [hbytes, exec_keeps_crc hs' hi.symm fun v hv => hu ⟨v, hv⟩]

/-- Settles O26: the equation of `CRCUPD`, its words and the refused words beside them, and the fold over any operations
from the value `CRCCLR` writes. -/
theorem crcupdFoldsAndStreams : Obligations.CrcupdFoldsAndStreams := by
  refine ⟨fun s v => exec_crcupd v s, fun v => ?word, fun w hcode => ?refused, fun v => (crc8Byte_eq_zero v v).2 rfl,
    by decide, fun is s his => ?stream⟩
  case word => exact encode_crcupd v ▸ decodeWord_encode (i := .crcupd v) rfl
  case refused => exact refusesWord_of_aField_ne_zero (by simp [hcode])
  case stream =>
    obtain ⟨t, ht, hcrc⟩ := execAll_crc his { s with crc := 0x00, resp := answer 0 0x00 }
    exact ⟨t, by simpa only [execAll, exec_crcclr] using ht, hcrc⟩

end Sys2Proof.Machine

/-!
The statements about the bus and the passes over it (spec/20_memory.md section 5, spec/41_scanner.md section 4,
spec/70_reset_and_hazards.md section 3): the primitives of a `NEXT`, a silent bus, the reference bus, and a bus held
low.
-/

namespace Sys2Proof.Machine

/-! ## R112: the primitives of a `NEXT` -/

/-- R107, R112: an abort at the pair (1, 1) of position `k` follows the reset, the command and `k - 1` positions. -/
theorem abortEvents_length (qs : List (Bool × Bool × Bool)) :
    (passEvents qs ++ [BusEvent.readBit true, BusEvent.readBit true]).length = 3 * (qs.length + 1) + 8 := by
  rw [List.length_append, passEvents_length, List.length_cons, List.length_singleton]
  omega

/-- Settles O36: each ending of a `NEXT` with the primitives its pass leaves on the log, and the frame of the other
operations. -/
theorem nextBusActivity : Obligations.NextBusActivity := by
  refine ⟨fun s t _ h hst => ?next, fun i s t hn h => exec_keeps_port h hn⟩
  case next =>
    obtain ⟨t', ht, hcases⟩ := execNext_cases s
    cases ht.symm.trans h
    rcases hcases with ⟨hp, rfl⟩ | ⟨hp, w, z, q, hs, -, rfl⟩ | ⟨hp, q, hs, rfl⟩ | ⟨-, q, -, rfl⟩
    · exact ⟨[], rfl, .inl ⟨hp, rfl, rfl⟩⟩
    · obtain ⟨qs, hlen, -, hlog, -⟩ := searchPass_complete hs
      exact ⟨_, hlog, .inr (.inr (.inr ⟨hp, rfl, qs, hlen, rfl, by rw [passEvents_length, hlen]⟩))⟩
    · rcases searchPass_abort hs with hlog | ⟨qs, hlen, -, hlog⟩
      · exact ⟨[.reset false], hlog, .inr (.inl ⟨hp, rfl, rfl⟩)⟩
      · exact ⟨_, hlog, .inr (.inr (.inl ⟨hp, rfl, qs.length + 1, qs, Nat.succ_pos _, hlen, rfl, rfl,
          abortEvents_length qs⟩))⟩
    · cases hst

/-! ## R179: a bus that falls silent -/

/-- R52: the rest of an oracle that never answers the next primitive. -/
def Silent (answers : List BusAnswer) : Prop := answers = [] ∨ ∃ rest, answers = .never :: rest

/-- The primitive never returns, and it leaves no record. -/
theorem busPerform_hung_of_silent {silence : List BusAnswer} (h : Silent silence) (log : List BusEvent)
    (onWB : WB → Bool × WB) (event : Bool → BusEvent) :
    ∃ env, busPerform ⟨.oracle silence, log⟩ onWB event = .hung ⟨env, log⟩ := by
  rcases h with rfl | ⟨rest, rfl⟩ <;> exact ⟨_, rfl⟩

/-- An oracle that answers with `answers` in turn and falls silent after `n` of them. -/
def silencedEnv (n : Nat) (answers silence : List BusAnswer) : BusEnv := .oracle (answers.take n ++ silence)

section Silence

variable {silence : List BusAnswer} (hsilent : Silent silence)

include hsilent

theorem busPerform_silencedEnv_zero (answers : List BusAnswer) (log : List BusEvent) (onWB : WB → Bool × WB)
    (event : Bool → BusEvent) :
    ∃ env, busPerform ⟨silencedEnv 0 answers silence, log⟩ onWB event = .hung ⟨env, log⟩ := by
  rw [silencedEnv, List.take_zero, List.nil_append]
  exact busPerform_hung_of_silent hsilent log onWB event

/-- A byte write whose bits are not all answered never returns. -/
theorem busWriteBits_hung (v : Byte) (ignored : List Bool) {n : Nat} (j : Nat) (more : List BusAnswer)
    (log : List BusEvent) (hn : n < ignored.length) :
    ∃ env es, busWriteBits v ignored.length j ⟨silencedEnv n (ignored.map .bit ++ more) silence, log⟩ =
      .hung ⟨env, es ++ log⟩ ∧ es.length = n := by
  induction ignored generalizing n j log with
  | nil => exact absurd hn (Nat.not_lt_zero n)
  | cons b ignored ih =>
    cases n with
    | zero =>
      obtain ⟨env, he⟩ := busPerform_silencedEnv_zero hsilent ((b :: ignored).map .bit ++ more) log _ _
      exact ⟨env, [], by rw [List.length_cons, busWriteBits, busWriteBit, he]; rfl, rfl⟩
    | succ n =>
      obtain ⟨env, es, he, hlen⟩ := ih (j + 1) (.writeBit (v.getLsbD j) :: log) (Nat.lt_of_succ_lt_succ hn)
      refine ⟨env, es ++ [.writeBit (v.getLsbD j)], ?_, by rw [List.length_append, hlen]; rfl⟩
      rw [List.length_cons, busWriteBits, silencedEnv, List.map_cons, List.cons_append, List.take_succ_cons,
        List.cons_append, busWriteBit_oracle, List.append_assoc]
      exact he

/-- A loop whose positions are not all answered never ends. -/
theorem searchBits_hung (lastd : Nat) (rom : Address) (qs : List (Bool × Bool × Bool)) {n : Nat} (k : Nat)
    (work : Address) (z : Nat) (log : List BusEvent) (hqs : ∀ q ∈ qs, ¬(q.1 = true ∧ q.2.1 = true))
    (hn : n < 3 * qs.length) :
    ∃ env es, searchBits lastd rom qs.length k work z ⟨silencedEnv n (qs.flatMap positionAnswers) silence, log⟩ =
      .hung ⟨env, es ++ log⟩ ∧ es.length = n := by
  induction qs generalizing n k work z log with
  | nil => exact absurd hn (Nat.not_lt_zero n)
  | cons q qs ih =>
    obtain ⟨id, cmp, ignored⟩ := q
    obtain ⟨hq, hqs⟩ := List.forall_mem_cons.1 hqs
    have hpair : (id && cmp) = false := by simpa using hq
    have hanswers : ((id, cmp, ignored) :: qs).flatMap positionAnswers =
        .bit id :: .bit cmp :: .bit ignored :: qs.flatMap positionAnswers := rfl
    rw [List.length_cons] at hn
    match n with
    | 0 =>
      obtain ⟨env, he⟩ := busPerform_silencedEnv_zero hsilent (((id, cmp, ignored) :: qs).flatMap positionAnswers) log
        wbReadBit .readBit
      exact ⟨env, [], by rw [List.length_cons, searchBits, busReadBit, he]; rfl, rfl⟩
    | 1 =>
      obtain ⟨env, he⟩ := busPerform_hung_of_silent hsilent (.readBit id :: log) wbReadBit .readBit
      refine ⟨env, [.readBit id], ?_, rfl⟩
      rw [hanswers]
      simp only [List.length_cons, searchBits, silencedEnv, List.take_succ_cons, List.take_zero, List.cons_append,
        List.nil_append, busReadBit_oracle]
      simp only [busReadBit, he]
    | 2 =>
      obtain ⟨env, he⟩ := busPerform_hung_of_silent hsilent (.readBit cmp :: .readBit id :: log)
        (fun w => (searchDir lastd rom k id cmp, wbWriteBit w (searchDir lastd rom k id cmp)))
        (fun _ => .writeBit (searchDir lastd rom k id cmp))
      refine ⟨env, [.readBit cmp, .readBit id], ?_, rfl⟩
      rw [hanswers]
      simp only [List.length_cons, searchBits, silencedEnv, List.take_succ_cons, List.take_zero, List.cons_append,
        List.nil_append, busReadBit_oracle, hpair, Bool.false_eq_true, if_false]
      simp only [busWriteBit, he]
    | n + 3 =>
      obtain ⟨env, es, he, hlen⟩ := ih (k + 1) (setAddrBit work (k - 1) (searchDir lastd rom k id cmp))
        (nextLastZero k z id cmp (searchDir lastd rom k id cmp))
        (.writeBit (searchDir lastd rom k id cmp) :: .readBit cmp :: .readBit id :: log) hqs (n := n) (by omega)
      refine ⟨env, es ++ [.writeBit (searchDir lastd rom k id cmp), .readBit cmp, .readBit id], ?_, ?_⟩
      · rw [hanswers]
        simp only [List.length_cons, searchBits, silencedEnv, List.take_succ_cons, List.cons_append,
          busReadBit_oracle, hpair, Bool.false_eq_true, if_false, busWriteBit_oracle]
        simpa [silencedEnv] using he
      · simp [hlen]

/-- R179: a pass whose 201 primitives are not all answered never ends, and performed those that were. -/
theorem searchPass_hung (lastd : Nat) (rom : Address) {ignored : List Bool} {qs : List (Bool × Bool × Bool)} {n : Nat}
    (log : List BusEvent) (hignored : ignored.length = 8) (hlen : qs.length = 64)
    (hqs : ∀ q ∈ qs, ¬(q.1 = true ∧ q.2.1 = true)) (hn : n < 201) :
    ∃ env es, searchPass lastd rom ⟨silencedEnv n (passAnswers ignored qs) silence, log⟩ =
      .hung ⟨env, es ++ log⟩ ∧ es.length = n := by
  cases n with
  | zero =>
    obtain ⟨env, he⟩ := busPerform_silencedEnv_zero hsilent (passAnswers ignored qs) log wbReset .reset
    exact ⟨env, [], by rw [searchPass, busReset, he]; rfl, rfl⟩
  | succ n =>
    have hanswered : (passAnswers ignored qs).take (n + 1) ++ silence =
        .bit true :: ((ignored.map BusAnswer.bit ++ qs.flatMap positionAnswers).take n ++ silence) := rfl
    rw [silencedEnv, hanswered]
    rcases Nat.lt_or_ge n 8 with hcommand | hpositions
    · obtain ⟨env, es, he, hes⟩ := busWriteBits_hung hsilent searchCommand ignored 0 (qs.flatMap positionAnswers)
        (.reset true :: log) (hignored.symm ▸ hcommand)
      rw [hignored] at he
      refine ⟨env, es ++ [.reset true], ?_, by rw [List.length_append, hes]; rfl⟩
      rw [searchPass, busReset_oracle, List.append_assoc]
      simp only [busWriteByte]
      rw [silencedEnv] at he
      rw [he]
      rfl
    · obtain ⟨m, rfl⟩ := Nat.exists_eq_add_of_le hpositions
      obtain ⟨env, es, he, hes⟩ := searchBits_hung hsilent lastd rom qs 1 zeroAddress 0
        ((BusEvent.reset true :: searchCommandEvents).reverse ++ log) hqs (n := m) (by omega)
      have htake : (ignored.map BusAnswer.bit ++ qs.flatMap positionAnswers).take (8 + m) =
          ignored.map BusAnswer.bit ++ (qs.flatMap positionAnswers).take m := by
        rw [List.take_append, List.length_map, hignored, Nat.add_sub_cancel_left,
          List.take_of_length_le (by rw [List.length_map]; omega)]
      refine ⟨env, es ++ (BusEvent.reset true :: searchCommandEvents).reverse, ?_, ?_⟩
      · rw [htake, List.append_assoc, List.append_assoc]
        rw [hlen] at he
        exact (searchPass_oracle lastd rom ignored hignored _ log).trans he
      · rw [List.length_append, hes, Nat.add_comm m, Nat.add_right_comm]
        rfl

end Silence

/-! ## R54: the reference bus always answers -/

/-- R53: the environment is a reference bus with the devices `D`. -/
def IsReference (devices : List Address) (env : BusEnv) : Prop := ∃ w, env = .reference w ∧ w.devices = devices

theorem wbReset_devices (w : WB) : (wbReset w).2.devices = w.devices := rfl

theorem wbReadBit_devices (w : WB) : (wbReadBit w).2.devices = w.devices := by
  unfold wbReadBit
  split
  case h_3 => rfl
  all_goals split <;> rfl

theorem wbWriteBit_devices (w : WB) (b : Bool) : (wbWriteBit w b).devices = w.devices := by
  unfold wbWriteBit
  split
  case h_2 => split <;> rfl
  all_goals rfl

theorem isReference_envAnswer {devices : List Address} {onWB : WB → Bool × WB}
    (hWB : ∀ w, (onWB w).2.devices = w.devices) {env : BusEnv} (h : IsReference devices env) :
    IsReference devices (envAnswer env onWB).2 := by
  obtain ⟨w, rfl, rfl⟩ := h
  exact ⟨_, rfl, hWB w⟩

theorem keptByPrimitives_isReference (devices : List Address) : KeptByPrimitives (IsReference devices) where
  reset _ := isReference_envAnswer wbReset_devices
  read _ := isReference_envAnswer wbReadBit_devices
  write _ b := isReference_envAnswer fun w => wbWriteBit_devices w b

section Answers

variable {devices : List Address} {p q : BusPort} (h : IsReference devices p.env)

include h

theorem busPerform_not_hung (onWB : WB → Bool × WB) (event : Bool → BusEvent) : busPerform p onWB event ≠ .hung q := by
  obtain ⟨w, hw, -⟩ := h
  simp [busPerform, hw, envAnswer]

theorem busWriteBits_not_hung (v : Byte) (n j : Nat) : busWriteBits v n j p ≠ .hung q := by
  induction n generalizing j p with
  | zero => exact BusResult.noConfusion
  | succ n ih =>
    unfold busWriteBits
    split <;> rename_i he
    · exact ih (busWriteBit_keeps (keptByPrimitives_isReference devices) he h) (j + 1)
    · exact absurd he (busPerform_not_hung h _ _)

theorem searchBits_not_hung (lastd : Nat) (rom : Address) (n k : Nat) (work : Address) (z : Nat) :
    searchBits lastd rom n k work z p ≠ .hung q := by
  have hkept := keptByPrimitives_isReference devices
  induction n generalizing k work z p with
  | zero => exact Pass.noConfusion
  | succ n ih =>
    unfold searchBits
    split <;> rename_i he1
    · exact absurd he1 (busPerform_not_hung h _ _)
    · have h1 := busReadBit_keeps hkept he1 h
      split <;> rename_i he2
      · exact absurd he2 (busPerform_not_hung h1 _ _)
      · have h2 := busReadBit_keeps hkept he2 h1
        split
        · exact Pass.noConfusion
        · split <;> rename_i he3
          · exact absurd he3 (busPerform_not_hung h2 _ _)
          · exact ih (busWriteBit_keeps hkept he3 h2) _ _ _

/-- R179: a pass on a reference bus ends. -/
theorem searchPass_not_hung (lastd : Nat) (rom : Address) : searchPass lastd rom p ≠ .hung q := by
  have hkept := keptByPrimitives_isReference devices
  unfold searchPass
  split <;> rename_i he1
  · exact absurd he1 (busPerform_not_hung h _ _)
  · exact Pass.noConfusion
  · have h1 := busReset_keeps hkept he1 h
    split <;> rename_i he2
    · exact absurd he2 (busWriteBits_not_hung h1 _ _ _)
    · exact searchBits_not_hung (busWriteBits_keeps hkept _ _ _ he2 h1) _ _ _ _ _ _

end Answers

/-- Settles O37: a pass on a reference bus is not left waiting, and every primitive keeps the devices. -/
theorem nextEndsOnReferenceBus : Obligations.NextEndsOnReferenceBus := by
  intro s w hst henv
  have href : IsReference w.devices s.port.env := ⟨w, henv, rfl⟩
  obtain ⟨t, ht, hcases⟩ := execNext_cases s
  obtain ⟨w', henv', hdevices⟩ := exec_keeps_env (keptByPrimitives_isReference w.devices) href ht
  refine ⟨t, w', ht, ?ends, henv', hdevices⟩
  case ends =>
    rcases hcases with ⟨-, rfl⟩ | ⟨-, -, -, -, -, -, rfl⟩ | ⟨-, -, -, rfl⟩ | ⟨-, q, hs, -⟩
    · exact hst
    · exact hst
    · exact hst
    · exact absurd hs (searchPass_not_hung href _ _)

/-- R170, R179: of a waiting block only the power-on reset ends the wait. -/
theorem step_ends_wait {s t : State} (hs : s.stalled = true) (h : step s = .next t) (ht : t.stalled = false) :
    ∃ rest, s.inputs = .powerOnReset :: rest := by
  rcases step_cases h with rfl | ⟨rest, hin, -⟩ | ⟨env, rest, -, rfl⟩ | ⟨-, -, -, -, hready, -⟩ |
    ⟨-, -, -, -, hready, -⟩
  · exact absurd (hs.symm.trans ht) Bool.noConfusion
  · exact ⟨rest, hin⟩
  · exact absurd (hs.symm.trans ht) Bool.noConfusion
  · exact absurd (hs.symm.trans hready) Bool.noConfusion
  · exact absurd (hs.symm.trans hready) Bool.noConfusion

/-- Settles O34: the pass on an oracle that falls silent, the steps of a waiting block, and the reference bus. -/
theorem nextWaitsForASilentBus : Obligations.NextWaitsForASilentBus := by
  refine ⟨fun s ignored qs n rest hphase hignored hlen hqs hn henv => ?waits,
    fun s w rest hs hin => step_of_command_of_stalled hin hs,
    fun s rest _ hin => ⟨_, step_of_powerOnReset hin, rfl⟩, fun s t => step_ends_wait, fun s w hs henv => ?reference⟩
  case waits =>
    obtain ⟨silence, hsilent, henv⟩ : ∃ silence, Silent silence ∧
        s.port.env = silencedEnv n (passAnswers ignored qs) silence := by
      rcases henv with henv | henv
      · exact ⟨_, .inr ⟨rest, rfl⟩, henv⟩
      · exact ⟨[], .inl rfl, by rw [henv, silencedEnv, List.append_nil]⟩
    obtain ⟨env, es, he, hes⟩ :=
      searchPass_hung hsilent s.lastd.toNat s.rom s.port.log hignored hlen hqs hn
    rw [← port_eq_of_env henv] at he
    exact ⟨_, es, exec_next_of_hung hphase he, rfl, hes⟩
  case reference =>
    obtain ⟨t, w', ht, hst, -⟩ := nextEndsOnReferenceBus s w hs henv
    exact ⟨t, ht, hst⟩

/-! ## R176: a bus held low -/

/-- R108: from IDLE a pass on pairs (0, 0) takes 0 everywhere. -/
theorem pathDirection_of_held_low {s : State} (hlastd : s.lastd = 0) (i : Nat) (b : Bool) :
    pathDirection s i (false, false, b) = false := by
  simp [pathDirection, hlastd]

/-- Settles O40: the completed pass takes 0 at 64 discrepancies, and `CHKA` passes an address of zeros. -/
theorem busHeldLowLooksLikeADevice : Obligations.BusHeldLowLooksLikeADevice := by
  intro s ignored ignored' rest hphase hlastd hignored hignored' henv
  have hidle : s.phase ≠ .exhausted := fun h => Phase.noConfusion (hphase.symm.trans h)
  have hlen : (ignored'.map fun b => (false, false, b)).length = 64 := (List.length_map _).trans hignored'
  have hlow : ∀ q ∈ ignored'.map fun b => (false, false, b), ¬(q.1 = true ∧ q.2.1 = true) := by simp
  obtain ⟨work, z, hpass, hbit, hnames⟩ := searchPass_complete_of_passAnswers hignored hlen hlow henv
  have hzeros : ∀ i < 64, addrBit work i = false := fun i hi => by
    rw [hbit i (hlen.symm ▸ hi), List.getElem_map, pathDirection_of_held_low hlastd]
  have hwork : work = zeroAddress := address_ext fun i hi => (hzeros i hi).trans (addrBit_zeroAddress hi).symm
  have hz : z = 64 := by
    have hle := hnames.le_length
    have hlast := hnames.2 63 (by omega) (by simp) (hzeros 63 (by decide))
    omega
  subst hwork hz
  have hnext := exec_next_of_complete hidle hpass
  have hchka := exec_chka_of_zero_rom (s := { s with
    phase := phaseAfter 64, lastd := BitVec.ofNat 7 64, fd := true, rom := zeroAddress,
    resp := answer 0 zeroAddress[0],
    port := ⟨.oracle rest, (passEvents (pathPositions s (ignored'.map fun b => (false, false, b)))).reverse ++
      s.port.log⟩ }) rfl rfl
  exact ⟨_, by rw [execAll, hnext]; exact execAll_singleton hchka, rfl, rfl, rfl, rfl, rfl, rfl⟩

/-! ## R55: the pairs on the reference bus -/

/-- R54: the two reads at one position, as what the devices taking part drive. -/
theorem wbReadBit_pair (devices taking : List Address) {i : Nat} (hi : i < 64) :
    let first := wbReadBit { devices := devices, mode := .search taking i .id }
    first.1 = taking.all (addrBit · i) ∧ (wbReadBit first.2).1 = taking.all (!addrBit · i) := by
  simp only [wbReadBit, hi, if_true, and_self]

/-- Settles O42: the first read is 1 when no device has the bit 0, the second when none has the bit 1. -/
theorem referenceBusPairs : Obligations.ReferenceBusPairs := by
  intro devices taking i hi first second
  obtain ⟨hfirst, hsecond⟩ : first.1 = taking.all (addrBit · i) ∧ second.1 = taking.all (!addrBit · i) :=
    wbReadBit_pair devices taking hi
  have hall1 : first.1 = true ↔ ∀ a ∈ taking, addrBit a i = true := by rw [hfirst, List.all_eq_true]
  have hall0 : second.1 = true ↔ ∀ a ∈ taking, addrBit a i = false := by simp [hsecond]
  have hsome0 : first.1 = false ↔ ∃ a ∈ taking, addrBit a i = false := by simp [hfirst]
  have hsome1 : second.1 = false ↔ ∃ a ∈ taking, addrBit a i = true := by simp [hsecond]
  simp only [Prod.mk.injEq, hall1, hall0, hsome0, hsome1]
  cases taking with
  | nil => simp
  | cons a taking =>
    cases ha : addrBit a i <;> simp [ha]

end Sys2Proof.Machine

/-!
The search key and the enumeration (spec/41_scanner.md R114, section 4): the order of the addresses by their first
differing bit, the pass that finds a given device, and the passes one after the other.
-/

namespace Sys2Proof.Machine

/-! ## R114: the search key -/

theorem bitsValue_append (l m : List Bool) : bitsValue (l ++ m) = bitsValue l * 2 ^ m.length + bitsValue m := by
  induction l with
  | nil => simp [bitsValue]
  | cons b l ih =>
    rw [List.cons_append, bitsValue, bitsValue, ih, List.length_append, pow_add]
    ring

theorem bitsValue_lt (l : List Bool) : bitsValue l < 2 ^ l.length := by
  induction l with
  | nil => exact Nat.one_pos
  | cons b l ih =>
    have hb : b.toNat * 2 ^ l.length ≤ 1 * 2 ^ l.length := Nat.mul_le_mul_right _ (Bool.toNat_le b)
    rw [bitsValue, List.length_cons, pow_succ]
    omega

/-- The first bit of a list is the top bit of its value. -/
theorem bitsValue_testBit {l : List Bool} {i : Nat} (h : i < l.length) :
    (bitsValue l).testBit (l.length - 1 - i) = l[i] := by
  induction l generalizing i with
  | nil => exact absurd h (Nat.not_lt_zero i)
  | cons b l ih =>
    rw [bitsValue, Nat.mul_comm, Nat.testBit_two_pow_mul_add _ (bitsValue_lt l)]
    cases i with
    | zero => cases b <;> simp
    | succ i =>
      have hi : i < l.length := Nat.lt_of_succ_lt_succ h
      have hj : (b :: l).length - 1 - (i + 1) = l.length - 1 - i := by rw [List.length_cons]; omega
      rw [hj, if_pos (by omega), ih hi, List.getElem_cons_succ]

/-- A number read off `n` blocks of `m` bits. -/
theorem bitsValue_blocks (m n : Nat) (f : Nat → Bool) :
    bitsValue ((List.range (m * n)).map f) =
      ∑ j ∈ Finset.range n, bitsValue ((List.range m).map fun k => f (m * j + k)) * (2 ^ m) ^ (n - 1 - j) := by
  induction n with
  | zero => rfl
  | succ n ih =>
    have hlower : ∑ j ∈ Finset.range n,
          bitsValue ((List.range m).map fun k => f (m * j + k)) * (2 ^ m) ^ (n + 1 - 1 - j) =
        (∑ j ∈ Finset.range n,
          bitsValue ((List.range m).map fun k => f (m * j + k)) * (2 ^ m) ^ (n - 1 - j)) * 2 ^ m := by
      rw [Finset.sum_mul]
      refine Finset.sum_congr rfl fun j hj => ?_
      have hj := Finset.mem_range.1 hj
      rw [mul_assoc, ← pow_succ, show n + 1 - 1 - j = n - 1 - j + 1 by omega]
    rw [Nat.mul_succ, List.range_add, List.map_append, bitsValue_append, ih, Finset.sum_range_succ, hlower]
    simp [Function.comp_def]

section SearchKey

variable (a : Address)

theorem searchKey_testBit {i : Nat} (h : i < 64) : (searchKey a).testBit (63 - i) = addrBit a i := by
  have hlen : (searchOrderBits a).length = 64 := by simp [searchOrderBits]
  have hbit := bitsValue_testBit (l := searchOrderBits a) (hlen.symm ▸ h)
  simp only [hlen] at hbit
  rw [searchKey, hbit]
  simp [searchOrderBits]

theorem searchKey_lt : searchKey a < 2 ^ 64 := by
  have hlt := bitsValue_lt (searchOrderBits a)
  rwa [searchOrderBits, List.length_map, List.length_range] at hlt

theorem searchKey_eq_sum_bits :
    searchKey a = ∑ i ∈ Finset.range 64, if addrBit a i then 2 ^ (63 - i) else 0 := by
  refine (bitsValue_blocks 1 64 (addrBit a)).trans (Finset.sum_congr rfl fun i _ => ?_)
  cases h : addrBit a i <;> simp [bitsValue, h]

/-- A reversed byte reads its bits least significant first. -/
theorem toNat_reverse_eq_bitsValue (b : Byte) : b.reverse.toNat = bitsValue ((List.range 8).map b.getLsbD) := by
  revert b
  decide +kernel

theorem searchKey_eq_sum_bytes : searchKey a = ∑ j : Fin 8, a[j].reverse.toNat * 256 ^ (7 - j.val) := by
  refine (bitsValue_blocks 8 8 (addrBit a)).trans ((Finset.sum_range _).trans (Finset.sum_congr rfl fun j _ => ?_))
  rw [toNat_reverse_eq_bitsValue]
  congr 2
  refine List.map_congr_left fun k hk => ?_
  have hk := List.mem_range.1 hk
  rw [addrBit, show (8 * j.val + k) / 8 = j by omega, show (8 * j.val + k) % 8 = k by omega]
  simp

end SearchKey

theorem searchKey_injective {a b : Address} (h : searchKey a = searchKey b) : a = b :=
  address_ext fun i hi => by rw [← searchKey_testBit a hi, h, searchKey_testBit b hi]

/-- Settles O41: the key as one block per bit, as one block per byte, and its bits. -/
theorem searchKeyOrdersAddresses : Obligations.SearchKeyOrdersAddresses :=
  ⟨searchKey_eq_sum_bits, searchKey_eq_sum_bytes, fun _ _ => searchKey_injective⟩

/-! ## R114: the order of the addresses -/

/-- The two addresses have the same bits below bit `i`. -/
abbrev AgreeBelow (i : Nat) (a b : Address) : Prop := ∀ j < i, addrBit a j = addrBit b j

/-- The addresses first differ at bit `i`, where `a` has 0 and `b` has 1. -/
abbrev PrecedesAt (i : Nat) (a b : Address) : Prop := AgreeBelow i a b ∧ addrBit a i = false ∧ addrBit b i = true

section Order

variable {a b c : Address} {i d : Nat}

theorem agreeBelow_succ : AgreeBelow (i + 1) a b ↔ AgreeBelow i a b ∧ addrBit a i = addrBit b i :=
  Nat.forall_lt_succ_right

/-- R114: the first differing bit decides the order of the keys. -/
theorem searchKey_lt_of_precedesAt (hi : i < 64) (h : PrecedesAt i a b) : searchKey a < searchKey b := by
  obtain ⟨hbelow, ha, hb⟩ := h
  refine Nat.lt_of_testBit (63 - i) ((searchKey_testBit a hi).trans ha) ((searchKey_testBit b hi).trans hb) ?_
  intro j hj
  rcases Nat.lt_or_ge j 64 with hj64 | hj64
  · have hbit := hbelow (63 - j) (by omega)
    rwa [← searchKey_testBit a (by omega), ← searchKey_testBit b (by omega), show 63 - (63 - j) = j by omega] at hbit
  · have hpow : 2 ^ 64 ≤ 2 ^ j := Nat.pow_le_pow_right (by decide) hj64
    rw [Nat.testBit_lt_two_pow ((searchKey_lt a).trans_le hpow),
      Nat.testBit_lt_two_pow ((searchKey_lt b).trans_le hpow)]

/-- Different addresses have a first differing bit. -/
theorem precedesAt_or_of_ne (h : a ≠ b) : ∃ i < 64, PrecedesAt i a b ∨ PrecedesAt i b a := by
  have hdiffer : ∃ i, i < 64 ∧ addrBit a i ≠ addrBit b i := by
    by_contra hno
    push Not at hno
    exact h (address_ext hno)
  classical
  obtain ⟨hi, hne⟩ := Nat.find_spec hdiffer
  have hbelow : AgreeBelow (Nat.find hdiffer) a b := fun j hj => by
    have hmin := Nat.find_min hdiffer hj
    push Not at hmin
    exact hmin (by omega)
  refine ⟨_, hi, ?_⟩
  cases ha : addrBit a (Nat.find hdiffer)
  · rw [ha] at hne
    exact .inl ⟨hbelow, ha, by simpa using hne.symm⟩
  · rw [ha] at hne
    exact .inr ⟨fun j hj => (hbelow j hj).symm, by simpa using hne.symm, ha⟩

theorem exists_precedesAt_of_searchKey_lt (h : searchKey a < searchKey b) : ∃ i < 64, PrecedesAt i a b := by
  have hne : a ≠ b := fun hab => h.ne (congrArg searchKey hab)
  obtain ⟨i, hi, hab | hba⟩ := precedesAt_or_of_ne hne
  · exact ⟨i, hi, hab⟩
  · exact absurd (searchKey_lt_of_precedesAt hi hba) (Nat.not_lt_of_gt h)

/-- Addresses that agree up to a bit where `a` precedes `b` stand alike to `b`. -/
theorem precedesAt_of_agreeBelow (h : PrecedesAt d a b) (hac : AgreeBelow i a c) (hd : d < i) : PrecedesAt d c b := by
  obtain ⟨hbelow, ha, hb⟩ := h
  exact ⟨fun j hj => (hac j (hj.trans hd)).symm.trans (hbelow j hj), (hac d hd).symm.trans ha, hb⟩

theorem precedesAt_of_agreeBelow_right (h : PrecedesAt d a b) (hbc : AgreeBelow i b c) (hd : d < i) :
    PrecedesAt d a c := by
  obtain ⟨hbelow, ha, hb⟩ := h
  exact ⟨fun j hj => (hbelow j hj).trans (hbc j (hj.trans hd)), ha, (hbc d hd).symm.trans hb⟩

end Order

/-! ## R108: the pass that finds a given device -/

/-- R108: at every discrepancy on the way to `a` among the devices the decision path takes the bit of `a`. -/
def PathLeadsTo (lastd : Nat) (rom : Address) (devices : List Address) (a : Address) : Prop :=
  ∀ i < 64, ∀ b ∈ devices,
    (PrecedesAt i a b → discrepancyDir lastd rom (i + 1) = false) ∧
    (PrecedesAt i b a → discrepancyDir lastd rom (i + 1) = true)

/-- R108: `z` is the highest position up to `i` at which another device has 1 where `a` has 0, or 0 without one. -/
def LastZeroOnWay (devices : List Address) (a : Address) (i z : Nat) : Prop :=
  (z = 0 ∨ ∃ j < i, z = j + 1 ∧ ∃ b ∈ devices, PrecedesAt j a b) ∧
  ∀ j < i, ∀ b ∈ devices, PrecedesAt j a b → j + 1 ≤ z

/-- R54: the devices still taking part at bit `i` of a pass on its way to `a`. -/
def stillTaking (devices : List Address) (a : Address) (i : Nat) : List Address :=
  devices.filter fun b => AgreeBelow i a b

/-- R54: the reference bus before position `i + 1` of a pass on its way to `a`. -/
def searchingEnv (devices : List Address) (a : Address) (i : Nat) : BusEnv :=
  .reference { devices := devices, mode := .search (stillTaking devices a i) i .id }

section OnTheWay

variable {lastd : Nat} {rom : Address} {devices : List Address} {a : Address} {i z : Nat}

theorem stillTaking_zero : stillTaking devices a 0 = devices := by
  simp [stillTaking, AgreeBelow]

/-- R54: the direction of `a` keeps the devices that agree with `a` on one more bit. -/
theorem filter_stillTaking :
    ((stillTaking devices a i).filter fun b => addrBit b i == addrBit a i) = stillTaking devices a (i + 1) := by
  rw [stillTaking, stillTaking, List.filter_filter]
  refine List.filter_congr fun b _ => ?_
  rw [Bool.eq_iff_iff, Bool.and_eq_true, beq_iff_eq, decide_eq_true_iff, decide_eq_true_iff, agreeBelow_succ, and_comm,
    eq_comm (a := addrBit b i)]

/-- R54: the first read on the way to `a` is 1 when no device taking part has 0. -/
theorem all_stillTaking_iff :
    (stillTaking devices a i).all (addrBit · i) = true ↔
      ∀ b ∈ devices, AgreeBelow i a b → addrBit b i = true := by
  simp only [stillTaking, List.all_eq_true, List.mem_filter, decide_eq_true_iff, and_imp]

/-- R54: the second read on the way to `a` is 1 when no device taking part has 1. -/
theorem all_not_stillTaking_iff :
    (stillTaking devices a i).all (!addrBit · i) = true ↔
      ∀ b ∈ devices, AgreeBelow i a b → addrBit b i = false := by
  simp only [stillTaking, List.all_eq_true, List.mem_filter, decide_eq_true_iff, and_imp, Bool.not_eq_true']

theorem lastZeroOnWay_succ_of_none (hz : LastZeroOnWay devices a i z) (h : ∀ b ∈ devices, ¬ PrecedesAt i a b) :
    LastZeroOnWay devices a (i + 1) z := by
  obtain ⟨hnamed, hhighest⟩ := hz
  refine ⟨hnamed.imp_right fun ⟨j, hj, hrest⟩ => ⟨j, by omega, hrest⟩, fun j hj b hb hp => ?_⟩
  rcases Nat.lt_succ_iff_lt_or_eq.1 hj with hj | rfl
  · exact hhighest j hj b hb hp
  · exact absurd hp (h b hb)

theorem lastZeroOnWay_succ_of_some (h : ∃ b ∈ devices, PrecedesAt i a b) :
    LastZeroOnWay devices a (i + 1) (i + 1) :=
  ⟨.inr ⟨i, Nat.lt_succ_self i, rfl, h⟩, fun _ hj _ _ _ => hj⟩

/-- R102, R108: the pair read at one position on the way to `a`, the direction it gives and the new `last_zero`. -/
theorem position_on_way (ha : a ∈ devices) (hpath : PathLeadsTo lastd rom devices a) (hi : i < 64)
    (hz : LastZeroOnWay devices a i z) {id cmp : Bool} (hid : id = (stillTaking devices a i).all (addrBit · i))
    (hcmp : cmp = (stillTaking devices a i).all (!addrBit · i)) :
    (id && cmp) = false ∧ searchDir lastd rom (i + 1) id cmp = addrBit a i ∧
      LastZeroOnWay devices a (i + 1) (nextLastZero (i + 1) z id cmp (addrBit a i)) := by
  have hid : id = true ↔ ∀ b ∈ devices, AgreeBelow i a b → addrBit b i = true := hid ▸ all_stillTaking_iff
  have hcmp : cmp = true ↔ ∀ b ∈ devices, AgreeBelow i a b → addrBit b i = false := hcmp ▸ all_not_stillTaking_iff
  cases hbit : addrBit a i
  case false =>
    have hid : id = false := by
      by_contra h
      have := hid.1 (by simpa using h) a ha fun _ _ => rfl
      simp [hbit] at this
    subst hid
    cases cmp
    case false =>
      have hsome : ∃ b ∈ devices, PrecedesAt i a b := by simpa [PrecedesAt, hbit] using hcmp
      obtain ⟨b, hb, hp⟩ := hsome
      exact ⟨rfl, (hpath i hi b hb).1 hp, lastZeroOnWay_succ_of_some ⟨b, hb, hp⟩⟩
    case true =>
      have hnone : ∀ b ∈ devices, ¬ PrecedesAt i a b := fun b hb ⟨hbelow, _, hb1⟩ => by
        simp [hcmp.1 rfl b hb hbelow] at hb1
      exact ⟨rfl, rfl, lastZeroOnWay_succ_of_none hz hnone⟩
  case true =>
    have hnone : ∀ b ∈ devices, ¬ PrecedesAt i a b := fun b _ ⟨_, ha0, _⟩ => by simp [hbit] at ha0
    have hcmp : cmp = false := by
      by_contra h
      have := hcmp.1 (by simpa using h) a ha fun _ _ => rfl
      simp [hbit] at this
    subst hcmp
    refine ⟨Bool.and_false id, ?_, by simpa [nextLastZero] using lastZeroOnWay_succ_of_none hz hnone⟩
    cases id
    case false =>
      obtain ⟨b, hb, hbelow, hb0⟩ : ∃ b ∈ devices, AgreeBelow i a b ∧ addrBit b i = false := by simpa using hid
      exact (hpath i hi b hb).2 ⟨fun j hj => (hbelow j hj).symm, hb0, hbit⟩
    case true => rfl

/-- R54: the three primitives of one position on the way to `a`. -/
theorem searchBits_on_way (ha : a ∈ devices) (hpath : PathLeadsTo lastd rom devices a) (n : Nat) (hi : i < 64)
    (hz : LastZeroOnWay devices a i z) (work : Address) (log : List BusEvent) :
    ∃ z' log', LastZeroOnWay devices a (i + 1) z' ∧
      searchBits lastd rom (n + 1) (i + 1) work z ⟨searchingEnv devices a i, log⟩ =
        searchBits lastd rom n (i + 2) (setAddrBit work i (addrBit a i)) z' ⟨searchingEnv devices a (i + 1), log'⟩ := by
  obtain ⟨id, hid⟩ : ∃ id, id = (stillTaking devices a i).all (addrBit · i) := ⟨_, rfl⟩
  obtain ⟨cmp, hcmp⟩ : ∃ cmp, cmp = (stillTaking devices a i).all (!addrBit · i) := ⟨_, rfl⟩
  obtain ⟨hpair, hdir, hz'⟩ := position_on_way ha hpath hi hz hid hcmp
  refine ⟨_, .writeBit (addrBit a i) :: .readBit cmp :: .readBit id :: log, hz', ?_⟩
  rw [searchBits]
  simp only [searchingEnv, busReadBit, busWriteBit, busPerform, envAnswer, wbReadBit, wbWriteBit, hi, if_true, ← hid,
    ← hcmp, hpair, Bool.false_eq_true, if_false, hdir, filter_stillTaking, Nat.add_sub_cancel]

/-- R107: the rest of a pass on its way to `a` finds `a`. -/
theorem searchBits_finds (ha : a ∈ devices) (hpath : PathLeadsTo lastd rom devices a) {n : Nat} (hn : i + n = 64)
    (hz : LastZeroOnWay devices a i z) {work : Address} (hwork : AgreeBelow i work a) (log : List BusEvent) :
    ∃ z' env log', searchBits lastd rom n (i + 1) work z ⟨searchingEnv devices a i, log⟩ = .complete a z' ⟨env, log'⟩ ∧
      LastZeroOnWay devices a 64 z' := by
  induction n generalizing i z work log with
  | zero =>
    obtain rfl : i = 64 := hn
    obtain rfl : work = a := address_ext hwork
    exact ⟨z, _, log, rfl, hz⟩
  | succ n ih =>
    have hi : i < 64 := by omega
    obtain ⟨z', log', hz', hstep⟩ := searchBits_on_way ha hpath n hi hz work log
    have hwork' : AgreeBelow (i + 1) (setAddrBit work i (addrBit a i)) a := fun j hj => by
      rw [addrBit_setAddrBit _ _ _ _ hi]
      split
      · rename_i hji
        rw [hji]
      · exact hwork j (by omega)
    rw [hstep]
    exact ih (by omega) hz' hwork' log'

/-- R51, R54: the search command on the reference bus after a reset. -/
theorem busWriteByte_searchCommand (devices : List Address) (log : List BusEvent) :
    busWriteByte ⟨.reference { devices := devices, mode := .command [] }, log⟩ searchCommand =
      .returned false ⟨.reference { devices := devices, mode := .search devices 0 .id },
        searchCommandEvents.reverse ++ log⟩ := rfl

/-- R106 to R108: a pass whose decision path leads to a device finds it, in any mode of the reference bus. -/
theorem searchPass_finds (ha : a ∈ devices) (hpath : PathLeadsTo lastd rom devices a) {p : BusPort}
    (hp : IsReference devices p.env) :
    ∃ z q, searchPass lastd rom p = .complete a z q ∧ LastZeroOnWay devices a 64 z := by
  obtain ⟨⟨devices', mode⟩, henv, rfl⟩ := hp
  have hpresence : devices'.isEmpty = false := List.isEmpty_eq_false_iff.2 (List.ne_nil_of_mem ha)
  have hreset : busReset p = .returned true ⟨.reference { devices := devices', mode := .command [] },
      .reset true :: p.log⟩ := by
    simp [busReset, busPerform, henv, envAnswer, wbReset, hpresence]
  have hstart : LastZeroOnWay devices' a 0 0 := ⟨.inl rfl, fun j hj => absurd hj (Nat.not_lt_zero j)⟩
  obtain ⟨z, env, log, hrun, hz⟩ := searchBits_finds ha hpath (Nat.zero_add 64) hstart (work := zeroAddress)
    (fun j hj => absurd hj (Nat.not_lt_zero j)) (searchCommandEvents.reverse ++ .reset true :: p.log)
  rw [searchingEnv, stillTaking_zero] at hrun
  refine ⟨z, ⟨env, log⟩, ?_, hz⟩
  rw [searchPass, hreset]
  simp only [busWriteByte_searchCommand]
  exact hrun

end OnTheWay

/-! ## R113, R114: from one device to the next -/

section Enumeration

variable {devices : List Address} {a b : Address} {z : Nat}

/-- R114: `b` is the next device after `a` in the order of the search key. -/
def IsNextDevice (devices : List Address) (a b : Address) : Prop :=
  searchKey a < searchKey b ∧ ∀ c ∈ devices, searchKey c ≤ searchKey a ∨ searchKey b ≤ searchKey c

/-- R108: with `LASTD` 0 the decision path leads to the first device. -/
theorem pathLeadsTo_of_least (rom : Address) (h : ∀ c ∈ devices, searchKey a ≤ searchKey c) :
    PathLeadsTo 0 rom devices a := by
  refine fun i hi c hc => ⟨fun _ => by simp [discrepancyDir], fun hp => ?_⟩
  exact absurd (searchKey_lt_of_precedesAt hi hp) (Nat.not_lt_of_ge (h c hc))

/-- R108: after the last device there is no position to resume from. -/
theorem lastZero_eq_zero_of_greatest (hz : LastZeroOnWay devices a 64 z)
    (h : ∀ c ∈ devices, searchKey c ≤ searchKey a) : z = 0 := by
  obtain ⟨rfl | ⟨j, hj, -, c, hc, hp⟩, -⟩ := hz
  · rfl
  · exact absurd (searchKey_lt_of_precedesAt hj hp) (Nat.not_lt_of_ge (h c hc))

/-- R108: the position to resume from is where the next device first differs. -/
theorem lastZero_eq_of_next (hz : LastZeroOnWay devices a 64 z) (hb : b ∈ devices) (h : IsNextDevice devices a b) :
    ∃ d < 64, PrecedesAt d a b ∧ z = d + 1 := by
  obtain ⟨hab, hbetween⟩ := h
  obtain ⟨hnamed, hhighest⟩ := hz
  obtain ⟨d, hd, hp⟩ := exists_precedesAt_of_searchKey_lt hab
  have hle := hhighest d hd b hb hp
  refine ⟨d, hd, hp, ?_⟩
  rcases hnamed with rfl | ⟨j, hj, rfl, c, hc, hpc⟩
  · omega
  · by_contra hne
    have hcb := searchKey_lt_of_precedesAt hd (precedesAt_of_agreeBelow hp hpc.1 (by omega))
    have hac := searchKey_lt_of_precedesAt hj hpc
    have := hbetween c hc
    omega

/-- R108: resumed there, the decision path leads to the next device. -/
theorem pathLeadsTo_of_next (hz : LastZeroOnWay devices a 64 z) (hb : b ∈ devices) (h : IsNextDevice devices a b) :
    PathLeadsTo z a devices b := by
  obtain ⟨d, hd, hp, rfl⟩ := lastZero_eq_of_next hz hb h
  have ⟨hbelow, _, hb1⟩ := hp
  obtain ⟨hab, hbetween⟩ := h
  intro i hi c hc
  rcases Nat.lt_trichotomy i d with hlt | rfl | hgt
  · have hdir : discrepancyDir (d + 1) a (i + 1) = addrBit b i := by
      rw [← hbelow i hlt, discrepancyDir, if_pos (by omega), Nat.add_sub_cancel]
    rw [hdir]
    exact ⟨fun ⟨_, hbit, _⟩ => hbit, fun ⟨_, _, hbit⟩ => hbit⟩
  · have hdir : discrepancyDir (i + 1) a (i + 1) = true := by simp [discrepancyDir]
    rw [hdir]
    exact ⟨fun ⟨_, hb0, _⟩ => by simp [hb0] at hb1, fun _ => rfl⟩
  · have hdir : discrepancyDir (d + 1) a (i + 1) = false := by
      rw [discrepancyDir, if_neg (by omega), decide_eq_false_iff_not]
      omega
    rw [hdir]
    refine ⟨fun _ => rfl, fun hpc => ?_⟩
    have hcb := searchKey_lt_of_precedesAt hi hpc
    have hac := searchKey_lt_of_precedesAt hd
      (precedesAt_of_agreeBelow_right hp (fun j hj => (hpc.1 j hj).symm) hgt)
    have := hbetween c hc
    omega

/-- R109: the state after a `NEXT` that found the device `a`. -/
structure FoundDevice (devices : List Address) (a : Address) (t : State) : Prop where
  rom : t.rom = a
  fd : t.fd = true
  resp : t.resp = answer 0 a[0]
  phase : t.phase = phaseAfter t.lastd.toNat
  lastd : LastZeroOnWay devices a 64 t.lastd.toNat
  env : IsReference devices t.port.env

theorem exec_next_finds {s : State} (hphase : s.phase ≠ .exhausted) (henv : IsReference devices s.port.env)
    (ha : a ∈ devices) (hpath : PathLeadsTo s.lastd.toNat s.rom devices a) :
    ∃ t, exec .next s = .next t ∧ FoundDevice devices a t := by
  obtain ⟨z, q, hpass, hz⟩ := searchPass_finds ha hpath henv
  have hlastd : (BitVec.ofNat 7 z).toNat = z := toNat_ofNat_of_lastZero (searchPass_lastZero_le hpass)
  have ht := exec_next_of_complete hphase hpass
  exact ⟨_, ht, rfl, rfl, rfl, by rw [hlastd], by rwa [hlastd],
    exec_keeps_env (keptByPrimitives_isReference devices) henv ht⟩

theorem FoundDevice.phase_of_next {t : State} (h : FoundDevice devices a t) (hb : b ∈ devices)
    (hnext : IsNextDevice devices a b) : t.phase = .searching := by
  obtain ⟨d, -, -, hz⟩ := lastZero_eq_of_next h.lastd hb hnext
  exact h.phase.trans (if_neg (by omega))

theorem FoundDevice.phase_of_greatest {t : State} (h : FoundDevice devices a t)
    (hlast : ∀ c ∈ devices, searchKey c ≤ searchKey a) : t.phase = .exhausted :=
  h.phase.trans (if_pos (lastZero_eq_zero_of_greatest h.lastd hlast))

/-- R110: without a device the pass is aborted after its reset. -/
theorem exec_next_of_no_device {s : State} (hphase : s.phase ≠ .exhausted) (henv : IsReference [] s.port.env) :
    ∃ q, exec .next s = .next { s with
      phase := .exhausted, lastd := 0, fd := false, resp := answer 1 0x00, port := q } := by
  obtain ⟨w, hw, hdevices⟩ := henv
  have hreset : ∃ q, busReset s.port = .returned false q := by
    simp [busReset, busPerform, hw, envAnswer, wbReset, hdevices]
  obtain ⟨q, hq⟩ := hreset
  exact ⟨q, exec_next_of_abort hphase (by rw [searchPass, hq])⟩

end Enumeration

/-! ## R114: the devices one after the other -/

section Sorted

variable {sorted devices : List Address} (hsorted : AscendingByKey sorted devices)

include hsorted

theorem mem_of_getElem_sorted {n : Nat} (h : n < sorted.length) : sorted[n] ∈ devices :=
  hsorted.1.mem_iff.1 (List.getElem_mem h)

theorem searchKey_sorted_le {m n : Nat} (hm : m ≤ n) (hn : n < sorted.length) :
    searchKey (sorted[m]'(by omega)) ≤ searchKey sorted[n] := by
  rcases Nat.lt_or_eq_of_le hm with hlt | rfl
  · exact (List.pairwise_iff_getElem.1 hsorted.2 m n (by omega) hn hlt).le
  · exact le_rfl

theorem exists_getElem_sorted {c : Address} (hc : c ∈ devices) : ∃ m, ∃ h : m < sorted.length, sorted[m] = c :=
  List.getElem_of_mem (hsorted.1.mem_iff.2 hc)

theorem sorted_zero_least (h : 0 < sorted.length) : ∀ c ∈ devices, searchKey sorted[0] ≤ searchKey c := by
  intro c hc
  obtain ⟨m, hm, rfl⟩ := exists_getElem_sorted hsorted hc
  exact searchKey_sorted_le hsorted (Nat.zero_le m) hm

theorem sorted_last_greatest {n : Nat} (hn : n < sorted.length) (hlast : sorted.length ≤ n + 1) :
    ∀ c ∈ devices, searchKey c ≤ searchKey sorted[n] := by
  intro c hc
  obtain ⟨m, hm, rfl⟩ := exists_getElem_sorted hsorted hc
  exact searchKey_sorted_le hsorted (by omega) hn

theorem sorted_isNextDevice {n : Nat} (hn : n + 1 < sorted.length) : IsNextDevice devices sorted[n] sorted[n + 1] := by
  refine ⟨List.pairwise_iff_getElem.1 hsorted.2 n (n + 1) (by omega) hn (Nat.lt_succ_self n), fun c hc => ?_⟩
  obtain ⟨m, hm, rfl⟩ := exists_getElem_sorted hsorted hc
  rcases Nat.lt_or_ge n m with hlt | hge
  · exact .inr (searchKey_sorted_le hsorted hlt hm)
  · exact .inl (searchKey_sorted_le hsorted hge (by omega))

variable {s : State} (hphase : s.phase = .idle) (henv : IsReference devices s.port.env)

include hphase henv

/-- R114: the `n + 1`-th `NEXT` from IDLE finds the `n`-th device, counted from 0. -/
theorem execAll_next_finds (hlastd : s.lastd = 0) {n : Nat} (hn : n < sorted.length) :
    ∃ t, execAll (List.replicate (n + 1) .next) s = .next t ∧ FoundDevice devices sorted[n] t := by
  induction n with
  | zero =>
    have hidle : s.phase ≠ .exhausted := fun h => Phase.noConfusion (hphase.symm.trans h)
    have hpath : PathLeadsTo s.lastd.toNat s.rom devices sorted[0] :=
      hlastd ▸ pathLeadsTo_of_least s.rom (sorted_zero_least hsorted hn)
    obtain ⟨t, ht, hfound⟩ := exec_next_finds hidle henv (mem_of_getElem_sorted hsorted hn) hpath
    exact ⟨t, execAll_singleton ht, hfound⟩
  | succ n ih =>
    obtain ⟨t, hrun, hfound⟩ := ih (by omega)
    have hmem := mem_of_getElem_sorted hsorted hn
    have hnext := sorted_isNextDevice hsorted hn
    have hsearching : t.phase ≠ .exhausted := by
      rw [hfound.phase_of_next hmem hnext]
      exact Phase.noConfusion
    have hpath : PathLeadsTo t.lastd.toNat t.rom devices sorted[n + 1] :=
      hfound.rom ▸ pathLeadsTo_of_next hfound.lastd hmem hnext
    obtain ⟨t', ht', hfound'⟩ := exec_next_finds hsearching hfound.env hmem hpath
    rw [List.replicate_succ']
    exact ⟨t', (execAll_append _ hrun).trans (execAll_singleton ht'), hfound'⟩

/-- R109, R110: as many `NEXT` as there are devices, but at least one, leave EXHAUSTED. -/
theorem execAll_next_exhausts (hlastd : s.lastd = 0) :
    ∃ t, execAll (List.replicate (max 1 sorted.length) .next) s = .next t ∧ t.phase = .exhausted := by
  rcases Nat.eq_zero_or_pos sorted.length with hnil | hpos
  · obtain rfl := List.length_eq_zero_iff.1 hnil
    obtain rfl := List.nil_perm.1 hsorted.1
    have hidle : s.phase ≠ .exhausted := fun h => Phase.noConfusion (hphase.symm.trans h)
    obtain ⟨q, ht⟩ := exec_next_of_no_device hidle henv
    exact ⟨_, execAll_singleton ht, rfl⟩
  · obtain ⟨t, hrun, hfound⟩ :=
      execAll_next_finds hsorted hphase henv hlastd (n := sorted.length - 1) (by omega)
    refine ⟨t, ?_, hfound.phase_of_greatest (sorted_last_greatest hsorted (by omega) (by omega))⟩
    rwa [show max 1 sorted.length = sorted.length - 1 + 1 by omega]

end Sorted

/-- Settles O38: the `NEXT` that find a device by induction on their number, the later ones by the stickiness of
EXHAUSTED, and the bus without devices. -/
theorem nextEnumeratesDevicesAscending : Obligations.NextEnumeratesDevicesAscending := by
  intro s w sorted hphase hlastd henv _ hsorted
  have href : IsReference w.devices s.port.env := ⟨w, henv, rfl⟩
  refine ⟨fun n hn => ?finds, fun m hm hm1 => ?noMore, fun hnil => ?empty⟩
  case finds =>
    obtain ⟨t, hrun, hfound⟩ := execAll_next_finds hsorted hphase href hlastd hn
    refine ⟨t, hrun, hfound.rom, hfound.fd, hfound.resp, ?_⟩
    split
    · rename_i hmore
      exact hfound.phase_of_next (mem_of_getElem_sorted hsorted hmore) (sorted_isNextDevice hsorted hmore)
    · rename_i hlast
      exact hfound.phase_of_greatest (sorted_last_greatest hsorted hn (Nat.le_of_not_lt hlast))
  case noMore =>
    obtain ⟨t, hrun, hexhausted⟩ := execAll_next_exhausts hsorted hphase href hlastd
    obtain ⟨k, rfl⟩ : ∃ k, m = max 1 sorted.length + (k + 1) := ⟨m - max 1 sorted.length - 1, by omega⟩
    obtain ⟨-, hsticky, -⟩ := exhaustedIsSticky
    obtain ⟨t', hrun', hphase', -, -, hfd, hresp⟩ := hsticky (List.replicate k .next) t hexhausted (by simp)
    refine ⟨t', ?_, hresp, hfd, hphase'⟩
    rw [List.replicate_add, List.replicate_succ']
    exact (execAll_append _ hrun).trans hrun'
  case empty =>
    subst hnil
    have hidle : s.phase ≠ .exhausted := fun h => Phase.noConfusion (hphase.symm.trans h)
    have hdevices : w.devices = [] := List.nil_perm.1 hsorted.1
    obtain ⟨q, ht⟩ := exec_next_of_no_device hidle (hdevices ▸ href)
    exact ⟨_, ht, rfl, rfl, rfl⟩

/-! ## The worked trace -/

/-- The state a `NEXT` leads to. -/
def afterNext (s : State) : State :=
  match exec .next s with
  | .next t => t
  | _ => s

theorem exec_next_eq_afterNext (s : State) : exec .next s = .next (afterNext s) := by
  obtain ⟨t, ht⟩ := exec_answers_next .next s
  rw [afterNext, ht]

/-- Settles O39: the keys and the four passes, evaluated on the three devices. -/
theorem threeDeviceTrace : Obligations.ThreeDeviceTrace := by
  refine ⟨by decide +kernel, by decide +kernel, by decide +kernel, _, _, _, _, exec_next_eq_afterNext _,
    exec_next_eq_afterNext _, exec_next_eq_afterNext _, exec_next_eq_afterNext _, ?_⟩
  decide +kernel

end Sys2Proof.Machine

/-!
The statement about the assembler (spec/30_encoding.md R69, R70, spec/00_scope.md R9): numerals, the parts of a line,
the text of an operation and the pseudo-operations.
-/

namespace Sys2Proof.Machine

/-! ## R9: numerals -/

theorem digitValue_hexDigit : ∀ d < 16, digitValue (hexDigit d) = some d := by decide

theorem digitsFrom_hexDigits {ds : List Nat} (h : ∀ d ∈ ds, d < 16) (n : Nat) :
    digitsFrom 16 n (ds.map hexDigit) = some (ds.foldl (fun n d => n * 16 + d) n) := by
  induction ds generalizing n with
  | nil => rfl
  | cons d ds ih =>
    obtain ⟨hd, hds⟩ := List.forall_mem_cons.1 h
    simp only [List.map_cons, digitsFrom, digitValue_hexDigit d hd, if_pos hd, List.foldl_cons, ih hds]

theorem numeral_hexDigits {d : Nat} {ds : List Nat} (h : ∀ e ∈ d :: ds, e < 16) :
    numeral ('0' :: 'x' :: (d :: ds).map hexDigit) = some ((d :: ds).foldl (fun n d => n * 16 + d) 0) :=
  digitsFrom_hexDigits h 0

/-! ## R69: the parts of a line -/

/-- A part of a line: characters that separate nothing. -/
abbrev IsToken (cs : List Char) : Prop := cs ≠ [] ∧ ∀ c ∈ cs, c ≠ ';' ∧ c ≠ ',' ∧ isBlank c = false

/-- The check of a part of a line, as a program. -/
def isToken (cs : List Char) : Bool := !cs.isEmpty && cs.all fun c => c != ';' && c != ',' && !isBlank c

section Tokens

variable {cs ds mnemonic : List Char}

theorem isToken_iff : isToken cs = true ↔ IsToken cs := by
  simp [isToken, IsToken, and_assoc]

theorem IsToken.no_semicolon (h : IsToken cs) : ∀ c ∈ cs, c ≠ ';' := fun c hc => (h.2 c hc).1

theorem IsToken.no_comma (h : IsToken cs) : ∀ c ∈ cs, c ≠ ',' := fun c hc => by
  obtain ⟨-, hcomma, -⟩ := h.2 c hc
  exact hcomma

theorem IsToken.no_blank (h : IsToken cs) : ∀ c ∈ cs, isBlank c = false := fun c hc => by
  obtain ⟨-, -, hblank⟩ := h.2 c hc
  exact hblank

theorem isToken_hexDigits {ds : List Nat} (h : ∀ d ∈ ds, d < 16) : IsToken ('0' :: 'x' :: ds.map hexDigit) := by
  have hdigit : ∀ d < 16, hexDigit d ≠ ';' ∧ hexDigit d ≠ ',' ∧ isBlank (hexDigit d) = false := by decide
  refine ⟨List.cons_ne_nil _ _, ?_⟩
  simp only [List.forall_mem_cons, List.forall_mem_map]
  exact ⟨by decide, by decide, fun d hd => hdigit d (h d hd)⟩

theorem dropWhile_isBlank_of_head (hne : cs ≠ []) (h : isBlank (cs.head hne) = false) : cs.dropWhile isBlank = cs := by
  obtain ⟨c, cs, rfl⟩ := List.exists_cons_of_ne_nil hne
  exact List.dropWhile_cons_of_neg (by simpa using h)

/-- A text without a blank at either end is trimmed already. -/
theorem trimBlanks_of_ends (hne : cs ≠ []) (hhead : isBlank (cs.head hne) = false)
    (hlast : isBlank (cs.getLast hne) = false) : trimBlanks cs = cs := by
  have hrev : cs.reverse ≠ [] := mt List.reverse_eq_nil_iff.1 hne
  have hlast : isBlank (cs.reverse.head hrev) = false := by rwa [List.head_reverse]
  rw [trimBlanks, dropWhile_isBlank_of_head hne hhead, dropWhile_isBlank_of_head hrev hlast, List.reverse_reverse]

theorem trimBlanks_of_isToken (h : IsToken cs) : trimBlanks cs = cs := by
  exact trimBlanks_of_ends h.1 (h.no_blank _ (List.head_mem h.1)) (h.no_blank _ (List.getLast_mem h.1))

theorem trimBlanks_space (cs : List Char) : trimBlanks (' ' :: cs) = trimBlanks cs := rfl

theorem splitCommas_append (h : ∀ c ∈ cs, c ≠ ',') (ds : List Char) :
    splitCommas (cs ++ ',' :: ds) = cs :: splitCommas ds := by
  induction cs with
  | nil => rfl
  | cons c cs ih =>
    obtain ⟨hc, hcs⟩ := List.forall_mem_cons.1 h
    simp only [List.cons_append, splitCommas, if_neg hc, ih hcs]

theorem splitCommas_of_no_comma (h : ∀ c ∈ cs, c ≠ ',') : splitCommas cs = [cs] := by
  induction cs with
  | nil => rfl
  | cons c cs ih =>
    obtain ⟨hc, hcs⟩ := List.forall_mem_cons.1 h
    simp only [splitCommas, if_neg hc, ih hcs]

theorem operandsOf_eq (hne : trimBlanks cs ≠ []) :
    operandsOf cs = (splitCommas (trimBlanks cs)).mapM fun part => numeral (trimBlanks part) := by
  obtain ⟨c, text, htext⟩ := List.exists_cons_of_ne_nil hne
  rw [operandsOf, htext]

theorem operandsOf_one {n : Nat} (hcs : IsToken cs) (hn : numeral cs = some n) :
    operandsOf (' ' :: cs) = some [n] := by
  have htrim : trimBlanks (' ' :: cs) = cs := (trimBlanks_space cs).trans (trimBlanks_of_isToken hcs)
  rw [operandsOf_eq (htrim.symm ▸ hcs.1), htrim, splitCommas_of_no_comma hcs.no_comma]
  simp [trimBlanks_of_isToken hcs, hn]

/-- A line's operands that end as its second part does. -/
theorem trimBlanks_two (hcs : IsToken cs) (hds : IsToken ds) :
    trimBlanks (cs ++ ',' :: ' ' :: ds) = cs ++ ',' :: ' ' :: ds := by
  refine trimBlanks_of_ends (by simp) ?_ ?_
  · rw [List.head_append_of_ne_nil hcs.1]
    exact hcs.no_blank _ (List.head_mem hcs.1)
  · simpa [List.getLast_append, List.getLast_cons, hds.1] using hds.no_blank _ (List.getLast_mem hds.1)

theorem operandsOf_two {m n : Nat} (hcs : IsToken cs) (hm : numeral cs = some m) (hds : IsToken ds)
    (hn : numeral ds = some n) : operandsOf (' ' :: (cs ++ ',' :: ' ' :: ds)) = some [m, n] := by
  have htrim := (trimBlanks_space _).trans (trimBlanks_two hcs hds)
  have hspace : ∀ c ∈ ' ' :: ds, c ≠ ',' := List.forall_mem_cons.2 ⟨by decide, hds.no_comma⟩
  rw [operandsOf_eq (by rw [htrim]; simp), htrim, splitCommas_append hcs.no_comma, splitCommas_of_no_comma hspace]
  simp [trimBlanks_space, trimBlanks_of_isToken hcs, trimBlanks_of_isToken hds, hm, hn]

/-- R69: a line is its mnemonic, a blank and its operands. -/
theorem assembleLine_eq {line : String} {operands : List Nat} (hline : line.toList = mnemonic ++ ' ' :: cs)
    (hmnemonic : IsToken mnemonic) (hne : cs ≠ []) (hlast : isBlank (cs.getLast hne) = false)
    (hcomment : ∀ c ∈ cs, c ≠ ';') (hoperands : operandsOf (' ' :: cs) = some operands) :
    assembleLine line = wordsOfLine mnemonic operands := by
  have hcode : (line.toList.takeWhile fun c => c != ';') = mnemonic ++ ' ' :: cs := by
    rw [hline, List.takeWhile_eq_self_iff]
    intro c hc
    rw [bne_iff_ne]
    rcases List.mem_append.1 hc with hc | hc
    · exact hmnemonic.no_semicolon c hc
    · exact (List.forall_mem_cons.2 ⟨by decide, hcomment⟩ : ∀ c ∈ ' ' :: cs, c ≠ ';') c hc
  have htrim : trimBlanks (mnemonic ++ ' ' :: cs) = mnemonic ++ ' ' :: cs := by
    refine trimBlanks_of_ends (by simp) ?_ ?_
    · rw [List.head_append_of_ne_nil hmnemonic.1]
      exact hmnemonic.no_blank _ (List.head_mem hmnemonic.1)
    · simpa [List.getLast_append, List.getLast_cons, hne] using hlast
  have hword : ∀ c ∈ mnemonic, (!isBlank c) = true := fun c hc => by
    simp [hmnemonic.no_blank c hc]
  have htake : ((mnemonic ++ ' ' :: cs).takeWhile fun c => !isBlank c) = mnemonic := by
    rw [List.takeWhile_append_of_pos hword]
    simp [isBlank]
  have hdrop : ((mnemonic ++ ' ' :: cs).dropWhile fun c => !isBlank c) = ' ' :: cs := by
    rw [List.dropWhile_append_of_pos hword]
    simp [isBlank]
  obtain ⟨c, text, htext⟩ := List.exists_cons_of_ne_nil (by simp : mnemonic ++ ' ' :: cs ≠ [])
  rw [assembleLine, hcode, htrim, htext]
  simp only
  rw [← htext, htake, hdrop, hoperands]

/-- R69: a line with one operand. -/
theorem assembleLine_one {line : String} {n : Nat} (hline : line.toList = mnemonic ++ ' ' :: cs)
    (hmnemonic : IsToken mnemonic) (hcs : IsToken cs) (hn : numeral cs = some n) :
    assembleLine line = wordsOfLine mnemonic [n] :=
  assembleLine_eq hline hmnemonic hcs.1 (hcs.no_blank _ (List.getLast_mem hcs.1)) hcs.no_semicolon
    (operandsOf_one hcs hn)

/-- R69: a line with two operands. -/
theorem assembleLine_two {line : String} {m n : Nat} (hline : line.toList = mnemonic ++ ' ' :: (cs ++ ',' :: ' ' :: ds))
    (hmnemonic : IsToken mnemonic) (hcs : IsToken cs) (hm : numeral cs = some m) (hds : IsToken ds)
    (hn : numeral ds = some n) : assembleLine line = wordsOfLine mnemonic [m, n] := by
  refine assembleLine_eq hline hmnemonic (by simp) ?_ (fun c hc => ?_) (operandsOf_two hcs hm hds hn)
  · simpa [List.getLast_append, List.getLast_cons, hds.1] using hds.no_blank _ (List.getLast_mem hds.1)
  · simp only [List.mem_append, List.mem_cons] at hc
    rcases hc with hc | rfl | rfl | hc
    · exact hcs.no_semicolon c hc
    · decide
    · decide
    · exact hds.no_semicolon c hc

end Tokens

/-! ## R69: the text of an operation -/

theorem hexByte_toList (b : Byte) :
    (hexByte b).toList = '0' :: 'x' :: [b.toNat / 16, b.toNat % 16].map hexDigit := by
  simp [hexByte]

theorem hexByte_digits_lt (b : Byte) : ∀ d ∈ [b.toNat / 16, b.toNat % 16], d < 16 := by
  have := b.isLt
  simp only [List.forall_mem_cons, List.not_mem_nil, false_imp_iff, implies_true, and_true]
  omega

theorem isToken_hexByte (b : Byte) : IsToken (hexByte b).toList :=
  hexByte_toList b ▸ isToken_hexDigits (hexByte_digits_lt b)

theorem numeral_hexByte (b : Byte) : numeral (hexByte b).toList = some b.toNat := by
  rw [hexByte_toList, numeral_hexDigits (hexByte_digits_lt b), Option.some.injEq]
  simp only [List.foldl_cons, List.foldl_nil]
  omega

theorem hexWord_toList (w : Word) : (hexWord w).toList =
    '0' :: 'x' :: [w.toNat / 4096, w.toNat / 256 % 16, w.toNat / 16 % 16, w.toNat % 16].map hexDigit := by
  simp [hexWord]

theorem hexWord_digits_lt (w : Word) :
    ∀ d ∈ [w.toNat / 4096, w.toNat / 256 % 16, w.toNat / 16 % 16, w.toNat % 16], d < 16 := by
  have := w.isLt
  simp only [List.forall_mem_cons, List.not_mem_nil, false_imp_iff, implies_true, and_true]
  omega

theorem isToken_hexWord (w : Word) : IsToken (hexWord w).toList :=
  hexWord_toList w ▸ isToken_hexDigits (hexWord_digits_lt w)

theorem numeral_hexWord (w : Word) : numeral (hexWord w).toList = some w.toNat := by
  rw [hexWord_toList, numeral_hexDigits (hexWord_digits_lt w), Option.some.injEq]
  simp only [List.foldl_cons, List.foldl_nil]
  omega

theorem isToken_idx : ∀ idx : BitVec 4, IsToken (toString idx.toNat).toList := by
  simp only [← isToken_iff]
  decide +kernel

theorem numeral_idx : ∀ idx : BitVec 4, numeral (toString idx.toNat).toList = some idx.toNat := by decide +kernel

theorem byteOperand_toNat (b : Byte) : byteOperand b.toNat = some b := by
  simp [byteOperand, b.isLt]

theorem wordsOf_of_wellFormed {is : List Instr} (h : ∀ i ∈ is, i.WellFormed) : wordsOf is = some (is.map encode) :=
  if_pos (List.all_eq_true.2 h)

theorem wordsOf_singleton {i : Instr} (h : i.WellFormed) : wordsOf [i] = some [encode i] :=
  wordsOf_of_wellFormed (List.forall_mem_singleton.2 h)

/-- R69: a line with one byte as its operand. -/
theorem assembleLine_byte {line : String} {mnemonic : List Char} {v : Byte}
    (hline : line.toList = mnemonic ++ ' ' :: (hexByte v).toList) (hmnemonic : isToken mnemonic = true) :
    assembleLine line = wordsOfLine mnemonic [v.toNat] :=
  assembleLine_one hline (isToken_iff.1 hmnemonic) (isToken_hexByte v) (numeral_hexByte v)

/-- R69: the line of a legal operation assembles to its word. -/
theorem assembleLine_instrText {i : Instr} (h : i.WellFormed) : assembleLine (instrText i) = some [encode i] := by
  cases i with
  | nop | crcclr | chka | chks | srst | next => decide +kernel
  | crcupd v =>
    rw [assembleLine_byte (v := v) (mnemonic := "CRCUPD".toList) (by simp [instrText]) (by decide +kernel),
      ← wordsOf_singleton h]
    simp [wordsOfLine, byteOperand_toNat]
  | decode v =>
    rw [assembleLine_byte (v := v) (mnemonic := "DECODE".toList) (by simp [instrText]) (by decide +kernel),
      ← wordsOf_singleton h]
    simp [wordsOfLine, byteOperand_toNat]
  | rd a =>
    rw [assembleLine_byte (v := a) (mnemonic := "RD".toList) (by simp [instrText]) (by decide +kernel),
      ← wordsOf_singleton h]
    simp [wordsOfLine, byteOperand_toNat]
  | wrb idx v =>
    have hmnemonic : IsToken "WRB".toList := isToken_iff.1 (by decide +kernel)
    rw [assembleLine_two (by simp [instrText]) hmnemonic (isToken_idx idx) (numeral_idx idx) (isToken_hexByte v)
      (numeral_hexByte v), ← wordsOf_singleton h]
    simp [wordsOfLine, byteOperand_toNat, idx.isLt]

/-- R69: the line `.word` assembles to its word, legal or not. -/
theorem assembleLine_dotWord (w : Word) : assembleLine (".word " ++ hexWord w) = some [w] := by
  have hmnemonic : IsToken ".word".toList := isToken_iff.1 (by decide +kernel)
  rw [assembleLine_one (by simp) hmnemonic (isToken_hexWord w) (numeral_hexWord w)]
  simp [wordsOfLine, w.isLt]

theorem assembleLine_wordText (w : Word) : assembleLine (wordText w) = some [w] := by
  unfold wordText
  split <;> rename_i he
  · obtain ⟨hwf, hw⟩ := decodeWord_eq_ok_iff.1 he
    rw [assembleLine_instrText hwf, hw]
  · exact assembleLine_dotWord w

/-! ## R70: the pseudo-operations -/

theorem mapM_byteOperand_toNat (bs : List Byte) : (bs.map BitVec.toNat).mapM byteOperand = some bs := by
  induction bs with
  | nil => rfl
  | cons b bs ih => simp [byteOperand_toNat, ih]

theorem encode_wrb {idx : BitVec 4} (v : Byte) (h : idx.toNat ≤ 8) :
    encode (.wrb idx v) = BitVec.ofNat 16 (0x8000 + 256 * idx.toNat + v.toNat) := by
  obtain ⟨-, hword⟩ := decodeWord_eq_ok_iff.1 (decodeWord_wrb (v := v) h)
  exact hword

theorem wordsOfLine_crcSeq (bs : List Byte) : wordsOfLine "CRCSEQ".toList (bs.map BitVec.toNat) =
    some (0x1000 :: bs.map fun b => BitVec.ofNat 16 (0x2000 + b.toNat)) := by
  have hlegal : ∀ i ∈ pseudoCrcSeq bs, i.WellFormed := by
    simp only [pseudoCrcSeq, List.forall_mem_cons, List.forall_mem_map]
    exact ⟨rfl, fun _ _ => rfl⟩
  unfold wordsOfLine
  rw [if_pos rfl, mapM_byteOperand_toNat, Option.bind_some, wordsOf_of_wellFormed hlegal, pseudoCrcSeq,
    List.map_cons, List.map_map]
  exact congrArg (fun l => some (0x1000 :: l)) (List.map_congr_left fun v _ => encode_crcupd v)

/-- A scratchpad by its nine bytes. -/
theorem scratchpad_toList (b : Scratchpad) :
    b.toList = [b[0], b[1], b[2], b[3], b[4], b[5], b[6], b[7], b[8]] := by
  refine List.ext_getElem (by simp) fun i hi _ => ?_
  have hi : i < 9 := by simpa using hi
  interval_cases i <;> simp

theorem ldSpadWords_toList (b : Scratchpad) : ldSpadWords b.toList = wordsOf (pseudoLdSpad b) := by
  rw [scratchpad_toList]
  rfl

theorem pseudoLdSpad_wellFormed (b : Scratchpad) : ∀ i ∈ pseudoLdSpad b, i.WellFormed := by
  simp only [pseudoLdSpad, List.forall_mem_cons]
  exact ⟨rfl, rfl, rfl, rfl, rfl, rfl, rfl, rfl, rfl, nofun⟩

theorem wordsOfLine_ldSpad (b : Scratchpad) : wordsOfLine "LDSPAD".toList (b.toList.map BitVec.toNat) =
    some (b.toList.mapIdx fun i v => BitVec.ofNat 16 (0x8000 + 256 * i + v.toNat)) := by
  unfold wordsOfLine
  rw [if_neg (by decide +kernel), if_pos rfl, mapM_byteOperand_toNat, Option.bind_some, ldSpadWords_toList,
    wordsOf_of_wellFormed (pseudoLdSpad_wellFormed b), scratchpad_toList]
  simp [pseudoLdSpad, encode_wrb]

/-- Settles O5: the line of an operation by its mnemonic and operands, `.word` by its numeral, and the two
expansions. -/
theorem assemblerReadsTheTextOfEveryWord : Obligations.AssemblerReadsTheTextOfEveryWord :=
  ⟨assembleLine_wordText, wordsOfLine_crcSeq, wordsOfLine_ldSpad⟩

end Sys2Proof.Machine

/-!
The laws of the decode (spec/42_decoder.md section 4), the loading of the buffer (spec/43_access.md) and the first
operations after reset (spec/70_reset_and_hazards.md section 2).
-/

namespace Sys2Proof.Machine

/-! ## R122 to R127: the laws of the decode -/

section Magnitudes

variable {m : Nat} (hm : m ≤ 32767)

include hm

/-- R121: a count from 0 to 32767 is not negative and its own magnitude. -/
theorem negTemp_magTemp_of_count :
    negTemp (BitVec.ofNat 16 m) = false ∧ magTemp (BitVec.ofNat 16 m) = m := by
  have hraw : (BitVec.ofNat 16 m).toNat = m := by rw [BitVec.toNat_ofNat]; omega
  rw [← Bool.not_eq_true, negTemp_iff, magTemp_eq, hraw, if_neg (by omega)]
  exact ⟨by omega, rfl⟩

/-- R122: the negated count has the sign and the same magnitude. -/
theorem negTemp_magTemp_of_negated_count (hpos : 1 ≤ m) :
    negTemp (BitVec.ofNat 16 (65536 - m)) = true ∧ magTemp (BitVec.ofNat 16 (65536 - m)) = m := by
  have hraw : (BitVec.ofNat 16 (65536 - m)).toNat = 65536 - m := by rw [BitVec.toNat_ofNat]; omega
  rw [negTemp_iff, magTemp_eq, hraw, if_pos (by omega)]
  omega

end Magnitudes

/-- R122 to R127: of two raw values with one magnitude, a negative and another, the text differs by the sign. -/
theorem readingOf_of_same_magTemp {raw raw' : BitVec 16} (hneg : negTemp raw = true) (hneg' : negTemp raw' = false)
    (hmag : magTemp raw = magTemp raw') : (readingOf raw).whole = (readingOf raw').whole ∧
      (readingOf raw).frac = (readingOf raw').frac ∧ (readingOf raw).text = 0x2D :: (readingOf raw').text := by
  simp only [readingOf, hneg, hneg', hmag, true_and]
  rfl

theorem scaledTemp_succ (m : Nat) : scaledTemp (m + 1) = scaledTemp m + if (m + 1) % 4 = 0 then 7 else 6 := by
  unfold scaledTemp
  split <;> omega

/-- R124: the whole part counts sixteenths, the fraction is that of the sixteenths left over. -/
theorem readingOf_sixteenths (raw : BitVec 16) : (readingOf raw).whole = magTemp raw / 16 ∧
    (readingOf raw).frac = magTemp raw % 16 * 6 + magTemp raw % 16 / 4 := by
  have hsplit : magTemp raw * 6 + magTemp raw / 4 =
      magTemp raw % 16 * 6 + magTemp raw % 16 / 4 + magTemp raw / 16 * 100 := by omega
  have hlt : magTemp raw % 16 * 6 + magTemp raw % 16 / 4 < 100 := by omega
  rw [readingOf_whole, readingOf_frac, hsplit, Nat.add_mul_div_right _ _ (by decide), Nat.div_eq_of_lt hlt,
    Nat.zero_add, Nat.add_mul_mod_self_right, Nat.mod_eq_of_lt hlt]
  exact ⟨rfl, rfl⟩

/-- R124: the hundredths of `r` sixteenths. -/
theorem hundredths_table : ∀ r < 16,
    [0, 6, 12, 18, 25, 31, 37, 43, 50, 56, 62, 68, 75, 81, 87, 93][r]? = some (r * 6 + r / 4) := by decide

/-- Settles O47: symmetry by the magnitude, one count more by the scale, the sign by its magnitude, and sixteen counts
by the scale's quotient and remainder. -/
theorem decodeLaws : Obligations.DecodeLaws := by
  refine ⟨fun m hpos hm => ?symmetry, scaledTemp_succ, fun raw => readingOf_six_le_of_neg, fun raw => ?sixteenths⟩
  case symmetry =>
    obtain ⟨hneg, hmag⟩ := negTemp_magTemp_of_negated_count hm hpos
    obtain ⟨hneg', hmag'⟩ := negTemp_magTemp_of_count hm
    exact readingOf_of_same_magTemp hneg hneg' (hmag.trans hmag'.symm)
  case sixteenths =>
    obtain ⟨hwhole, hfrac⟩ := readingOf_sixteenths raw
    exact ⟨hwhole, hfrac ▸ hundredths_table _ (Nat.mod_lt _ (by decide))⟩

/-- Settles O48: a successful `DECODE` stores the reading of the raw value, which is the two bytes. -/
theorem decodeDependsOnTheTemperatureBytesOnly : Obligations.DecodeDependsOnTheTemperatureBytesOnly := by
  intro s₁ s₂ t₁ t₂ fam₁ fam₂ hf₁ hf₂ hc₁ hc₂ h0 h1 ht₁ ht₂
  have hraw : rawTemp s₁.buf = rawTemp s₂.buf := by rw [rawTemp, rawTemp, h0, h1]
  cases (exec_decode_of_pass hf₁ hc₁).symm.trans ht₁
  cases (exec_decode_of_pass hf₂ hc₂).symm.trans ht₂
  simp only [storeReading_ng, storeReading_whole, storeReading_frac, storeReading_tlen, storeReading_tstr, hraw,
    and_self]

/-- Settles O49: the nine readings, evaluated. -/
theorem decodeWorkedExamples : Obligations.DecodeWorkedExamples := by
  refine ⟨?_, ?_, ?_, ?_, ?_, readingOf_zero, ?_, ?_, ?_⟩
  all_goals decide +kernel

/-! ## R70, R141: `LDSPAD` -/

/-- R70: nine bytes written one after the other replace a scratchpad. -/
theorem setIfInBounds_all (v b : Scratchpad) :
    ((((((((v.setIfInBounds 0 b[0]).setIfInBounds 1 b[1]).setIfInBounds 2 b[2]).setIfInBounds 3 b[3]).setIfInBounds 4
      b[4]).setIfInBounds 5 b[5]).setIfInBounds 6 b[6]).setIfInBounds 7 b[7]).setIfInBounds 8 b[8] = b := by
  ext i hi
  interval_cases i <;> simp

/-- R70: the nine writes load the buffer and answer the last byte. -/
theorem execAll_pseudoLdSpad (s : State) (b : Scratchpad) :
    execAll (pseudoLdSpad b) s = .next { s with buf := b, resp := answer 0 b[8] } := by
  simp (disch := decide) only [pseudoLdSpad, execAll, exec_wrb_of_legal]
  exact congrArg (fun buf => Host.Outcome.next { s with buf := buf, resp := answer 0 b[8] }) (setIfInBounds_all s.buf b)

/-- Settles O54: the writes load the buffer, and a read of its address answers the byte. -/
theorem ldspadLoadsTheBuffer : Obligations.LdspadLoadsTheBuffer := by
  refine fun s b => ⟨execAll_pseudoLdSpad s b, fun i => ?_⟩
  have hread := memRead_buf { s with buf := b, resp := answer 0 b[8] } i
  exact ⟨_, (execAll_append _ (execAll_pseudoLdSpad s b)).trans (execAll_singleton (exec_rd_of_mapped hread)), rfl, rfl⟩

/-! ## R173: the first operation after reset -/

/-- The reset state on any bus with any family codes. -/
def resetOn (port : BusPort) (params : Params) : State := { State.reset with port := port, params := params }

section FirstOperation

variable (port : BusPort) (params : Params)

/-- R37, R41: every mapped register reads zero after reset. -/
theorem memRead_resetOn {a : Byte} (h : MappedAddress a.toNat) : memRead (resetOn port params) a = some 0x00 := by
  have hreset : ∀ a : Byte, MappedAddress a.toNat → memRead State.reset a = some 0x00 := by decide +kernel
  exact hreset a h

/-- R173: a `NEXT` after reset waits, or it has performed primitives. -/
theorem exec_next_resetOn : ∃ t, exec .next (resetOn port params) = .next t ∧
    (t.stalled = true ∨ port.log.length < t.port.log.length) := by
  obtain ⟨t, ht, hcases⟩ := execNext_cases (resetOn port params)
  refine ⟨t, ht, ?_⟩
  rcases hcases with ⟨hp, -⟩ | ⟨-, w, z, q, hs, -, rfl⟩ | ⟨-, q, hs, rfl⟩ | ⟨-, q, -, rfl⟩
  · exact Phase.noConfusion hp
  · obtain ⟨qs, -, -, hlog, -⟩ := searchPass_complete hs
    right
    change port.log.length < q.log.length
    rw [hlog, List.length_append, List.length_reverse, passEvents_length]
    exact Nat.lt_add_of_pos_left (by omega)
  · right
    change port.log.length < q.log.length
    rcases searchPass_abort hs with hlog | ⟨qs, -, -, hlog⟩
    · rw [hlog]
      exact Nat.lt_succ_self _
    · rw [hlog, List.length_append, List.length_reverse, abortEvents_length]
      exact Nat.lt_add_of_pos_left (by omega)
  · exact .inl rfl

end FirstOperation

/-- Settles O58: the equation of each operation at the reset state, whose registers and buffer are zero. -/
theorem firstOperationsAfterReset : Obligations.FirstOperationsAfterReset := by
  rintro port params s rfl
  refine ⟨?cleared, fun v => exec_crcupd v _, exec_chka_of_not_found rfl, exec_chks_of_zero_buf rfl,
    fun fam => exec_decode_of_zero_buf (s := resetOn port params) rfl,
    fun fam hA hB => exec_decode_of_unsupported (not_or.2 ⟨hA, hB⟩),
    exec_next_resetOn port params, fun a ha => exec_rd_of_mapped (memRead_resetOn port params ha)⟩
  case cleared =>
    simp only [List.forall_mem_cons]
    exact ⟨exec_nop _, exec_crcclr _, exec_srst _, nofun⟩

end Sys2Proof.Machine
